-- ==== Sys2Proof/Word.lean ====
section
/-! DEFINITION. The machine's bit vectors (spec/00_scope.md R8, spec/10_state.md R21,
spec/30_encoding.md R71). Addition, subtraction and the bitwise operations of `BitVec 32` are
taken modulo 2^32, as R8 has it. -/

namespace Sys2Proof

/-- A 32-bit value, two's complement where it is read as a number (R8). -/
abbrev Word := BitVec 32

/-- The 16-bit field `imm16` (R71). -/
abbrev Half := BitVec 16

/-- A 3-bit register field: an index in 0..7 (R71, R73). -/
abbrev RegIx := BitVec 3

end Sys2Proof
end

