-- ==== Sys2Proof/Config.lean ====
section
/-! DEFINITION. The implementation parameters of spec/00_scope.md R6 that are plain constants. The
NOOP sentinel stands in Decode.lean. The model needs no free value: every point the source leaves
open is settled by a decision of spec/92_eei_decisions.md, and the one OPEN parameter,
MEM_TAIL_INIT, is an argument of the reset operation (`Machine.resetWith`). -/

namespace Sys2Proof

/-- `MEM_WORDS`, the memory's capacity in Words (R6). -/
def Config.memWords : Nat := 65536

/-- `RESET_PC` (R6, R39). -/
def Config.resetPc : Word := 0

/-- `REG_INIT`, every register's reset value (R6, R40). -/
def Config.regInit : Word := 0

/-- What an address that the memory's list does not name reads as.
DESIGN CHOICE, unsafe (log entry 2): R54 leaves MEM_TAIL_INIT OPEN; every contents can be listed,
so only a claim about `State.reset` itself can rest on this 0. -/
def Config.unlistedWord : Word := 0

end Sys2Proof
end

