-- ==== Sys2Proof/Syntax.lean ====
section
/-! DEFINITION. The instructions: one constructor for each row of spec/opcode_table.json
(spec/30_encoding.md R71, R77). Each carries every bit of its word, because the hazard unit and the
forwarding unit look at `regA` and `regB` of every word, a NOOP, a HALT or a data word included
(R75, R105, R110). -/

namespace Sys2Proof

/-- An instruction word by its opcode class (R77). -/
inductive Instr where
  /-- ADD, opcode 0: `r[imm16] := r[regA] + r[regB]` (R160). -/
  | add (regA regB : RegIx) (imm16 : Half)
  /-- NAND, opcode 1: `r[imm16] := ~(r[regA] & r[regB])` (R161). -/
  | nand (regA regB : RegIx) (imm16 : Half)
  /-- LW, opcode 2: `r[regB] := mem[r[regA] + off]` (R180). -/
  | lw (regA regB : RegIx) (imm16 : Half)
  /-- SW, opcode 3: `mem[r[regA] + off] := r[regB]` (R181). -/
  | sw (regA regB : RegIx) (imm16 : Half)
  /-- BEQ, opcode 4: go to pc+1+off when `r[regA] = r[regB]` (R200). -/
  | beq (regA regB : RegIx) (imm16 : Half)
  /-- JALR, opcode 5: reserved, acts as a no-op (R203). -/
  | jalr (regA regB : RegIx) (imm16 : Half)
  /-- HALT, opcode 6 (R201). -/
  | halt (regA regB : RegIx) (imm16 : Half)
  /-- NOOP, opcode 7 (R202). -/
  | noop (regA regB : RegIx) (imm16 : Half)
  /-- A data word, opcode class OTHER: bits 31:25 are `upper`, not all zero, and bits 24:22 are
  `opBits` (R204). -/
  | data (upper : BitVec 7) (opBits : BitVec 3) (regA regB : RegIx) (imm16 : Half)
  deriving DecidableEq, Repr

end Sys2Proof
end

