-- ==== Sys2Proof/WellFormed.lean ====
section
/-! DEFINITION. Which terms of `Instr` stand for a word of their own class
(spec/30_encoding.md R72, R82). -/

namespace Sys2Proof

/-- Every field value is legal in every instruction (R82: no encoding is illegal). The one check:
a data word has a nonzero bit in 31:25 (R72). -/
def Instr.wellFormed : Instr → Bool
  | .add _ _ _ => true
  | .nand _ _ _ => true
  | .lw _ _ _ => true
  | .sw _ _ _ => true
  | .beq _ _ _ => true
  | .jalr _ _ _ => true
  | .halt _ _ _ => true
  | .noop _ _ _ => true
  | .data upper _ _ _ _ => upper != 0

end Sys2Proof
end

