-- ==== Sys2Proof/Decode.lean ====
section
/-! DEFINITION. The instruction codec (spec/30_encoding.md R70 to R84): the opcode class and the
fields of a word, the decoder, the encoder, the NOOP sentinel, and the host's reading of a table
row's bits. -/

namespace Sys2Proof

/-- The value of `opc` (R13, R72): one of the eight opcodes, or OTHER for a data word. -/
inductive Opc where
  | add | nand | lw | sw | beq | jalr | halt | noop | other
  deriving DecidableEq, Repr

/-- Bits 31:25 (R71). -/
def upperBits (w : Word) : BitVec 7 := w.extractLsb' 25 7

/-- Bits 24:22 (R71). -/
def opcodeBits (w : Word) : BitVec 3 := w.extractLsb' 22 3

/-- `regA(w) = w[21:19]` (R73). -/
def regA (w : Word) : RegIx := w.extractLsb' 19 3

/-- `regB(w) = w[18:16]` (R73). -/
def regB (w : Word) : RegIx := w.extractLsb' 16 3

/-- `imm16(w) = w[15:0]` (R73). -/
def imm16 (w : Word) : Half := w.extractLsb' 0 16

/-- The opcode a 3-bit value selects (R71, R77). -/
def opcOfBits (op : BitVec 3) : Opc :=
  if op = 0 then .add
  else if op = 1 then .nand
  else if op = 2 then .lw
  else if op = 3 then .sw
  else if op = 4 then .beq
  else if op = 5 then .jalr
  else if op = 6 then .halt
  else .noop

/-- `opc(w)`: OTHER when a bit of 31:25 is set, else the value of bits 24:22 (R72). -/
def opc (w : Word) : Opc :=
  if upperBits w = 0 then opcOfBits (opcodeBits w) else .other

/-- The instruction a word is. Total: every word is one (R84). -/
def decode (w : Word) : Instr :=
  match opc w with
  | .add => .add (regA w) (regB w) (imm16 w)
  | .nand => .nand (regA w) (regB w) (imm16 w)
  | .lw => .lw (regA w) (regB w) (imm16 w)
  | .sw => .sw (regA w) (regB w) (imm16 w)
  | .beq => .beq (regA w) (regB w) (imm16 w)
  | .jalr => .jalr (regA w) (regB w) (imm16 w)
  | .halt => .halt (regA w) (regB w) (imm16 w)
  | .noop => .noop (regA w) (regB w) (imm16 w)
  | .other => .data (upperBits w) (opcodeBits w) (regA w) (regB w) (imm16 w)

/-- Why a list of Words holds no instruction. The codec itself rejects nothing (R82, R84). -/
inductive DecodeError where
  /-- The list is empty: an instruction is one whole Word (R70). -/
  | noWord
  deriving DecidableEq, Repr

/-- The instruction at the head of a list of Words, and the Words after it (R70: one length). -/
def decodeWords : List Word → Except DecodeError (Instr × List Word)
  | [] => .error .noWord
  | w :: rest => .ok (decode w, rest)

/-- The Word with these five fields, most significant first (R71's layout). -/
def packFields (upper : BitVec 7) (op : BitVec 3) (a b : RegIx) (f : Half) : Word :=
  upper ++ op ++ a ++ b ++ f

/-- `encode` (R78), extended to data words, whose upper bits it keeps (DESIGN CHOICE, safe: log
entry 9). -/
def encode : Instr → Word
  | .add a b f => packFields 0 0 a b f
  | .nand a b f => packFields 0 1 a b f
  | .lw a b f => packFields 0 2 a b f
  | .sw a b f => packFields 0 3 a b f
  | .beq a b f => packFields 0 4 a b f
  | .jalr a b f => packFields 0 5 a b f
  | .halt a b f => packFields 0 6 a b f
  | .noop a b f => packFields 0 7 a b f
  | .data upper op a b f => packFields upper op a b f

/-- The opcode class of an instruction term (R77). -/
def Instr.opc : Instr → Opc
  | .add _ _ _ => .add
  | .nand _ _ _ => .nand
  | .lw _ _ _ => .lw
  | .sw _ _ _ => .sw
  | .beq _ _ _ => .beq
  | .jalr _ _ _ => .jalr
  | .halt _ _ _ => .halt
  | .noop _ _ _ => .noop
  | .data _ _ _ _ _ => .other

/-- The field `regA` of an instruction term (R73: whatever its class). -/
def Instr.regA : Instr → RegIx
  | .add a _ _ => a
  | .nand a _ _ => a
  | .lw a _ _ => a
  | .sw a _ _ => a
  | .beq a _ _ => a
  | .jalr a _ _ => a
  | .halt a _ _ => a
  | .noop a _ _ => a
  | .data _ _ a _ _ => a

/-- The field `regB` of an instruction term (R73). -/
def Instr.regB : Instr → RegIx
  | .add _ b _ => b
  | .nand _ b _ => b
  | .lw _ b _ => b
  | .sw _ b _ => b
  | .beq _ b _ => b
  | .jalr _ b _ => b
  | .halt _ b _ => b
  | .noop _ b _ => b
  | .data _ _ _ b _ => b

/-- The field `imm16` of an instruction term (R73). -/
def Instr.imm16 : Instr → Half
  | .add _ _ f => f
  | .nand _ _ f => f
  | .lw _ _ f => f
  | .sw _ _ f => f
  | .beq _ _ f => f
  | .jalr _ _ f => f
  | .halt _ _ f => f
  | .noop _ _ f => f
  | .data _ _ _ _ f => f

/-- NOOP_WORD, the sentinel the core inserts itself: `encode(7, 0, 0, 0)` (R79). -/
def noopWord : Word := 0x01C00000

/-- The instruction a table row's bits are: one 32-bit Word (R70), its bits above `nbits` zero.
The Word is the memory's unit, so no byte order enters (R52). `none` for more than 32 bits, which
no instruction has. -/
def decodeTableWord (nbits w : Nat) : Option Instr :=
  if nbits ≤ 32 then
    match decodeWords [BitVec.ofNat 32 (w % 2 ^ nbits)] with
    | .ok (i, _) => some i
    | .error _ => none
  else none

end Sys2Proof
end

