-- ==== Sys2Proof/Machine/State.lean ====
section
/-! DEFINITION. The state of the core (spec/10_state.md R20 to R44), its two kinds of stop, and the
state right after reset. -/

namespace Sys2Proof.Machine

/-- One memory word at a word address: the smallest addressable unit is the 32-bit Word and no byte
view of memory exists (R52). -/
abbrev Cell := Nat × Word

/-- The memory: its listed words, addresses strictly rising, none equal to `Config.unlistedWord`,
which every other address reads as (log entries 2 and 3). -/
abbrev Memory := List Cell

/-- The eight general registers r0 to r7 (R22). -/
abbrev RegFile := Vector Word 8

/-- The fetch-fault marker `ff` (R29): `some a` when the slot was filled by a fetch from the
out-of-range address `a`. -/
abbrev Marker := Option Word

/-- IFID, Fetch to Decode (R30). -/
@[ext]
structure IfidLatch where
  instr : Word
  pcPlus1 : Word
  ff : Marker
  deriving DecidableEq, Repr

/-- IDEX, Decode to Execute (R31). -/
@[ext]
structure IdexLatch where
  instr : Word
  pcPlus1 : Word
  readRegA : Word
  readRegB : Word
  offset : Word
  ff : Marker
  deriving DecidableEq, Repr

/-- EXMEM, Execute to Memory (R32). -/
@[ext]
structure ExmemLatch where
  instr : Word
  branchTarget : Word
  aluResult : Word
  readRegB : Word
  ff : Marker
  deriving DecidableEq, Repr

/-- MEMWB, Memory to Writeback (R33), and WBEND, Writeback to Retire (R34), have the same fields. -/
@[ext]
structure DataLatch where
  instr : Word
  writeData : Word
  deriving DecidableEq, Repr

/-- A fault's cause with the information recorded for it (R231). -/
inductive FaultCause where
  /-- Code 1: an ADD or NAND in Writeback whose destination field is 8 or more; the index and the
  instruction word (R232). -/
  | destRange (index : Half) (word : Word)
  /-- Code 2: a LW or SW in Memory whose effective address is out of range; the address and the
  instruction word (R233). -/
  | memRange (ea : Word) (word : Word)
  /-- Code 3: a marked slot in Memory; the fetch address (R234). -/
  | fetchRange (addr : Word)
  deriving DecidableEq, Repr

/-- `status`, the control and termination state (R27). -/
inductive Status where
  | running
  | halted
  | faulted (cause : FaultCause)
  deriving DecidableEq, Repr

/-- The five pipeline slots an instruction passes through, one a cycle. THE MODEL'S OWN
(DESIGN CHOICE, safe: log entry 1). -/
inductive Slot where
  | fetch | decode | execute | memory | writeback
  deriving DecidableEq, Repr

/-- The state. `pc` to `status` are R20's tuple; `memWords` is the parameter MEM_WORDS of R6, which
no step writes (log entry 4); `slot` and `redirect` are the model's own, at rest between cycles
(log entry 1). -/
@[ext]
structure State where
  /-- The word address of the next fetch (R24). -/
  pc : Word
  regs : RegFile
  /-- The one array of fetch and data (R50). -/
  mem : Memory
  /-- The length of the loaded image (R20). -/
  imgLen : Nat
  ifid : IfidLatch
  idex : IdexLatch
  exmem : ExmemLatch
  memwb : DataLatch
  wbend : DataLatch
  /-- The cycle counter, unbounded (R28). -/
  cycles : Nat
  status : Status
  memWords : Nat
  /-- Which slot `exec` is asked to run its instruction in. -/
  slot : Slot
  /-- The Memory stage's signal, inside a cycle, that a taken BEQ redirects the pc (R117). -/
  redirect : Bool
  deriving DecidableEq, Repr

/-- Why a step stops the machine: there is no step from a state that is not RUNNING (R102, R123).
A fault of the spec (R231) is not one of these: taking it is a next state whose status is FAULTED
(R236; log entry 8). -/
inductive Fault where
  /-- Raised by `step` when the status is HALTED: HALTED is terminal (R27, R123). Safe: the state
  stays as it is (log entry 7). -/
  | halted
  /-- Raised by `step` when the status is FAULTED: FAULTED is terminal until the next reset
  (R123, R238). Safe: the state stays as it is (log entry 7). -/
  | faulted
  deriving DecidableEq, Repr

/-- Why the model turns a request away. -/
inductive Refusal where
  /-- Kept for an instruction without a meaning, raised in an arm of `exec` only; no arm of this
  model raises it. Safe. -/
  | notModelled (mnemonic : String)
  /-- Raised by `launch` for an image longer than MEM_WORDS: the core is never launched with one
  (R260, R264). Safe: no machine starts. -/
  | imageTooLong
  deriving DecidableEq, Repr

/-- What running an instruction in a slot, or one cycle, answers. -/
abbrev Result := Host.Outcome State Fault Refusal

/-- The machine right after reset, with an empty image (R260): pc 0 (R39), every register 0 (R40),
every latch the NOOP sentinel (R41) with its other fields 0 and no marker (R42), nothing listed in
memory (R43; log entry 2), cycle counter 0 and RUNNING (R44). -/
def State.reset : State where
  pc := Config.resetPc
  regs := Vector.replicate 8 Config.regInit
  mem := []
  imgLen := 0
  ifid := { instr := noopWord, pcPlus1 := 0, ff := none }
  idex := { instr := noopWord, pcPlus1 := 0, readRegA := 0, readRegB := 0, offset := 0, ff := none }
  exmem := { instr := noopWord, branchTarget := 0, aluResult := 0, readRegB := 0, ff := none }
  memwb := { instr := noopWord, writeData := 0 }
  wbend := { instr := noopWord, writeData := 0 }
  cycles := 0
  status := .running
  memWords := Config.memWords
  slot := .fetch
  redirect := false

end Sys2Proof.Machine
end

