-- ==== Sys2Proof/Machine/Flags.lean ====
section
/-! DEFINITION. The core has no flags, condition codes or predicate registers (spec/10_state.md
R26). What stands here is the one condition an instruction computes, BEQ's, which is stored nowhere,
and the range test of an address. -/

namespace Sys2Proof.Machine

/-- BEQ's condition: "zero signals equal" (R26, R200). -/
def aluIsZero (alu : Word) : Bool := alu = 0

/-- An address, read as a signed integer, is in range when `0 <= a < n`, `n` being MEM_WORDS
(R51). -/
def inRange (n : Nat) (a : Word) : Bool :=
  decide (0 ≤ a.toInt) && decide (a.toInt < (n : Int))

end Sys2Proof.Machine
end

