-- ==== Sys2Proof/Machine/Operands.lean ====
section
/-! DEFINITION. The operands of an instruction: sign extension (spec/00_scope.md R9), the register
file's read port (spec/10_state.md R23), the forwarding unit (spec/40_pipeline.md R110) and the ALU
functions (R111; spec/41_alu.md R162). -/

namespace Sys2Proof.Machine

/-- `sext_32` (R9). -/
def sext32 (v : Half) : Word := v.signExtend 32

/-- `zext_32` (R9). -/
def zext32 (v : Half) : Word := v.setWidth 32

/-- The committed value of a register (R23). No register is hard-wired (R22). -/
def readReg (s : State) (r : RegIx) : Word := s.regs[r.toNat]'r.isLt

/-- The register a word in EXMEM forwards `aluResult` to: ADD and NAND only, never LW (R110). -/
def exmemDest (w : Word) : Option Nat :=
  match opc w with
  | .add => some (imm16 w).toNat
  | .nand => some (imm16 w).toNat
  | .lw => none
  | .sw => none
  | .beq => none
  | .jalr => none
  | .halt => none
  | .noop => none
  | .other => none

/-- The register a word in MEMWB or WBEND forwards `writeData` to (R110), which is also the one
Writeback writes (R76). -/
def writeDest (w : Word) : Option Nat :=
  match opc w with
  | .add => some (imm16 w).toNat
  | .nand => some (imm16 w).toNat
  | .lw => some (regB w).toNat
  | .sw => none
  | .beq => none
  | .jalr => none
  | .halt => none
  | .noop => none
  | .other => none

/-- The forwarding unit for source index `r` and latched value `raw`: WBEND, then MEMWB, then EXMEM
override, the last match winning. The index is compared with the unmasked destination as an integer
(R110). -/
def forward (s : State) (r : RegIx) (raw : Word) : Word :=
  let fromWbend := if writeDest s.wbend.instr = some r.toNat then s.wbend.writeData else raw
  let fromMemwb :=
    if writeDest s.memwb.instr = some r.toNat then s.memwb.writeData else fromWbend
  if exmemDest s.exmem.instr = some r.toNat then s.exmem.aluResult else fromMemwb

/-- Operand a of the word in IDEX, whose field regA is `r` (R110). -/
def operandA (s : State) (r : RegIx) : Word := forward s r s.idex.readRegA

/-- Operand b of the word in IDEX, whose field regB is `r` (R110). -/
def operandB (s : State) (r : RegIx) : Word := forward s r s.idex.readRegB

/-- ADD's result, and the default of every opcode with no operation of its own (R111, R162). -/
def aluAdd (a b : Word) : Word := a + b

/-- NAND's result (R161). -/
def aluNand (a b : Word) : Word := ~~~(a &&& b)

/-- The effective address of LW and SW: base plus unscaled displacement (R182). -/
def aluAddress (a off : Word) : Word := a + off

/-- BEQ's comparison: zero exactly when the operands are the same Word (R162, R200). -/
def aluCompare (a b : Word) : Word := a - b

end Sys2Proof.Machine
end

