-- ==== Sys2Proof/Machine/Ops.lean ====
section
/-! DEFINITION. The named operations over memory, registers and latches that the instructions'
meanings share, taking a fault, and the reset operation (spec/20_memory.md, spec/40_pipeline.md,
spec/60_exceptions.md R236, spec/70_reset_and_hazards.md R260). -/

namespace Sys2Proof.Machine

/-! ### Memory -/

/-- The word at an address (R56, R57). -/
def Memory.read : Memory → Nat → Word
  | [], _ => Config.unlistedWord
  | (k, v) :: m, a => if k = a then v else Memory.read m a

/-- The memory with the word `v` at address `a` (R56). Keeps the canonical form: the value an
unlisted address reads as is not listed. -/
def Memory.write : Memory → Nat → Word → Memory
  | [], a, v => if v = Config.unlistedWord then [] else [(a, v)]
  | (k, x) :: m, a, v =>
    if a < k then
      if v = Config.unlistedWord then (k, x) :: m else (a, v) :: (k, x) :: m
    else if a = k then
      if v = Config.unlistedWord then m else (a, v) :: m
    else (k, x) :: Memory.write m a v

/-- Every address is `lo` or more, addresses rise strictly, no entry is what an unlisted address
reads as. -/
def Memory.wfFrom (lo : Nat) : Memory → Bool
  | [] => true
  | (k, v) :: m => decide (lo ≤ k) && decide (v ≠ Config.unlistedWord) && Memory.wfFrom (k + 1) m

/-- The canonical form of the memory's list. -/
def Memory.wf (m : Memory) : Bool := Memory.wfFrom 0 m

/-- Every listed address is below `n`: the array has no other (R50, R51). -/
def Memory.below (n : Nat) (m : Memory) : Bool := m.all fun c => decide (c.1 < n)

/-- The words from address `start` on, `count` of them, in canonical form: the image's words first,
then `tail` (R43, R54). -/
def Memory.fill (tail : Nat → Word) (start : Nat) : Nat → List Word → Memory
  | 0, _ => []
  | count + 1, [] =>
    if tail start = Config.unlistedWord then Memory.fill tail (start + 1) count []
    else (start, tail start) :: Memory.fill tail (start + 1) count []
  | count + 1, w :: image =>
    if w = Config.unlistedWord then Memory.fill tail (start + 1) count image
    else (start, w) :: Memory.fill tail (start + 1) count image

/-! ### Reset -/

/-- `reset(IMAGE, MEM_TAIL_INIT)` of a core with `n` memory words (R260). It does not depend on the
state before it: it may be applied in any status. -/
def resetWith (n : Nat) (image : List Word) (tail : Nat → Word) : State :=
  { State.reset with
    mem := Memory.fill tail 0 n image
    imgLen := image.length
    memWords := n }

/-- The host's load and reset: refused when the image does not fit, and then no reset takes place
(R260, R263, R264; log entry 10). -/
def launch (n : Nat) (image : List Word) (tail : Nat → Word) : Result :=
  if image.length ≤ n then .next (resetWith n image tail) else .refused .imageTooLong

/-! ### Faults -/

/-- The code of a fault's cause (R231). -/
def FaultCause.code : FaultCause → Nat
  | .destRange _ _ => 1
  | .memRange _ _ => 2
  | .fetchRange _ => 3

/-- Taking a fault: the status becomes FAULTED with its cause, and nothing else changes. There is no
handler, vector, saved pc or mode (R118, R236). There is no return: only a reset leaves FAULTED
(R238). -/
def raiseFault (c : FaultCause) (s : State) : State := { s with status := .faulted c }

/-! ### Slots -/

/-- The state asked to run an instruction in slot `k` (log entry 1). -/
def State.inSlot (s : State) (k : Slot) : State := { s with slot := k, redirect := false }

/-- The state between two cycles: the model's own fields at rest (log entry 1). -/
def State.rest (s : State) : State := { s with slot := .fetch, redirect := false }

/-! ### Registers -/

/-- The register file's write port (R23): register `d`, which is below 8, gets `v`. -/
def writeReg (s : State) (d : Nat) (h : d < 8) (v : Word) : State :=
  { s with regs := s.regs.set d v h }

/-! ### Fetch (R106, R107) -/

/-- The word at the pc, or `none` when the pc is out of range (R57). -/
def fetchWord (s : State) : Option Word :=
  if inRange s.memWords s.pc then some (s.mem.read s.pc.toNat) else none

/-- Fetch of an instruction: it is latched into IFID with pc+1, and the pc advances (R106). -/
def latchFetch (i : Instr) (s : State) : State :=
  { s with pc := s.pc + 1, ifid := { instr := encode i, pcPlus1 := s.pc + 1, ff := none } }

/-- Fetch from out of range: the stand-in NOOP_WORD with the marker (R107). -/
def latchStandIn (s : State) : State :=
  { s with
    pc := s.pc + 1
    ifid := { instr := noopWord, pcPlus1 := s.pc + 1, ff := some s.pc } }

/-! ### Decode (R108, R109) -/

/-- Decode: the registers named by the fields are read and the offset is sign-extended, whatever the
opcode (R74, R108). -/
def latchDecode (i : Instr) (s : State) : State :=
  { s with
    idex :=
      { instr := encode i
        pcPlus1 := s.ifid.pcPlus1
        readRegA := readReg s i.regA
        readRegB := readReg s i.regB
        offset := sext32 i.imm16
        ff := s.ifid.ff } }

/-- The bubble a stall puts into IDEX (R109). -/
def latchBubble (s : State) : State :=
  { s with
    idex :=
      { instr := noopWord
        pcPlus1 := s.ifid.pcPlus1
        readRegA := 0
        readRegB := 0
        offset := 0
        ff := none } }

/-! ### Execute (R112) -/

/-- Execute with ALU result `alu`: the branch target is computed for every opcode and the forwarded
operand b is carried (R112). -/
def latchExecute (i : Instr) (alu : Word) (s : State) : State :=
  { s with
    exmem :=
      { instr := encode i
        branchTarget := s.idex.pcPlus1 + s.idex.offset
        aluResult := alu
        readRegB := operandB s i.regB
        ff := s.idex.ff } }

/-! ### Memory (R113 to R115) -/

/-- The fetch-fault check: a marked slot raises FETCH_RANGE and does nothing else (R114). A marked
slot holds NOOP_WORD in every state a run reaches; where it does not, the marker wins (DEDUCED,
safe: log entry 5). -/
def unlessMarked (s : State) (act : State) : State :=
  match s.exmem.ff with
  | some p => raiseFault (.fetchRange p) s
  | none => act

/-- MEMWB gets the instruction and its write-back data. -/
def latchMemory (i : Instr) (data : Word) (s : State) : State :=
  { s with memwb := { instr := encode i, writeData := data } }

/-- Memory with no further action: the write-back data is the ALU result (R113). -/
def memoryPass (i : Instr) (s : State) : State :=
  unlessMarked s (latchMemory i s.exmem.aluResult s)

/-- LW in Memory: the word at the effective address is the write-back data (R180). -/
def memoryLoad (i : Instr) (s : State) : State :=
  unlessMarked s
    (if inRange s.memWords s.exmem.aluResult then
      latchMemory i (s.mem.read s.exmem.aluResult.toNat) s
    else raiseFault (.memRange s.exmem.aluResult (encode i)) s)

/-- SW in Memory: the carried operand is written at the effective address (R181). -/
def memoryStore (i : Instr) (s : State) : State :=
  unlessMarked s
    (if inRange s.memWords s.exmem.aluResult then
      { latchMemory i s.exmem.aluResult s with
        mem := s.mem.write s.exmem.aluResult.toNat s.exmem.readRegB }
    else raiseFault (.memRange s.exmem.aluResult (encode i)) s)

/-- Flush: IFID, IDEX and EXMEM become the sentinel without a marker, their other fields stay
(R115). -/
def flush (s : State) : State :=
  { s with
    ifid := { s.ifid with instr := noopWord, ff := none }
    idex := { s.idex with instr := noopWord, ff := none }
    exmem := { s.exmem with instr := noopWord, ff := none } }

/-- The redirect of a taken BEQ: the pc becomes the target and the three younger latches are
flushed (R115, R200). -/
def redirectTo (target : Word) (s : State) : State :=
  { flush s with pc := target, redirect := true }

/-- BEQ in Memory: taken when the ALU result is zero (R200). -/
def memoryBranch (i : Instr) (s : State) : State :=
  unlessMarked s
    (if aluIsZero s.exmem.aluResult then
      redirectTo s.exmem.branchTarget (latchMemory i s.exmem.aluResult s)
    else latchMemory i s.exmem.aluResult s)

/-! ### Writeback (R116) -/

/-- WBEND gets the instruction and its write-back data (R116). -/
def latchRetire (i : Instr) (s : State) : State :=
  { s with wbend := { instr := encode i, writeData := s.memwb.writeData } }

/-- Writeback of LW into register `r` (R116, R180). -/
def retireReg (i : Instr) (r : RegIx) (s : State) : State :=
  writeReg (latchRetire i s) r.toNat r.isLt s.memwb.writeData

/-- Writeback of ADD and NAND into the unmasked destination `d`: 8 or more raises DEST_RANGE
(R116, R232). -/
def retireDest (i : Instr) (d : Half) (s : State) : State :=
  if h : d.toNat < 8 then writeReg (latchRetire i s) d.toNat h s.memwb.writeData
  else raiseFault (.destRange d (encode i)) s

/-- The termination check that finds a HALT in MEMWB: only the status changes (R103). -/
def terminate (s : State) : State := { s with status := .halted }

end Sys2Proof.Machine
end

