-- ==== Sys2Proof/Machine/Alu.lean ====
section
/-! DEFINITION. The meanings of ADD and NAND, slot by slot (spec/41_alu.md R160, R161). -/

namespace Sys2Proof.Machine

/-- ADD (R160): `aluResult := a + b`, then write-back data, then `r[d]`. -/
def execAdd (a b : RegIx) (d : Half) (s : State) : Result :=
  match s.slot with
  | .fetch => .next (latchFetch (.add a b d) s)
  | .decode => .next (latchDecode (.add a b d) s)
  | .execute => .next (latchExecute (.add a b d) (aluAdd (operandA s a) (operandB s b)) s)
  | .memory => .next (memoryPass (.add a b d) s)
  | .writeback => .next (retireDest (.add a b d) d s)

/-- NAND (R161): `aluResult := ~(a & b)`, then as ADD. -/
def execNand (a b : RegIx) (d : Half) (s : State) : Result :=
  match s.slot with
  | .fetch => .next (latchFetch (.nand a b d) s)
  | .decode => .next (latchDecode (.nand a b d) s)
  | .execute => .next (latchExecute (.nand a b d) (aluNand (operandA s a) (operandB s b)) s)
  | .memory => .next (memoryPass (.nand a b d) s)
  | .writeback => .next (retireDest (.nand a b d) d s)

end Sys2Proof.Machine
end

