-- ==== Sys2Proof/Machine/Control.lean ====
section
/-! DEFINITION. The meanings of BEQ, JALR, HALT, NOOP and the data word, slot by slot
(spec/43_control.md R200 to R204). -/

namespace Sys2Proof.Machine

/-- BEQ (R200): `a - b` in Execute, the redirect and flush in Memory when it is zero. -/
def execBeq (a b : RegIx) (f : Half) (s : State) : Result :=
  match s.slot with
  | .fetch => .next (latchFetch (.beq a b f) s)
  | .decode => .next (latchDecode (.beq a b f) s)
  | .execute => .next (latchExecute (.beq a b f) (aluCompare (operandA s a) (operandB s b)) s)
  | .memory => .next (memoryBranch (.beq a b f) s)
  | .writeback => .next (latchRetire (.beq a b f) s)

/-- JALR (R203): reserved; the default path, with no effect. -/
def execJalr (a b : RegIx) (f : Half) (s : State) : Result :=
  match s.slot with
  | .fetch => .next (latchFetch (.jalr a b f) s)
  | .decode => .next (latchDecode (.jalr a b f) s)
  | .execute => .next (latchExecute (.jalr a b f) (aluAdd (operandA s a) (operandB s b)) s)
  | .memory => .next (memoryPass (.jalr a b f) s)
  | .writeback => .next (latchRetire (.jalr a b f) s)

/-- HALT (R201): the default path up to MEMWB; there the termination check halts the core, and
HALT never writes back (R103). -/
def execHalt (a b : RegIx) (f : Half) (s : State) : Result :=
  match s.slot with
  | .fetch => .next (latchFetch (.halt a b f) s)
  | .decode => .next (latchDecode (.halt a b f) s)
  | .execute => .next (latchExecute (.halt a b f) (aluAdd (operandA s a) (operandB s b)) s)
  | .memory => .next (memoryPass (.halt a b f) s)
  | .writeback => .next (terminate s)

/-- NOOP (R202): nothing. The sentinel the core inserts is the same word. -/
def execNoop (a b : RegIx) (f : Half) (s : State) : Result :=
  match s.slot with
  | .fetch => .next (latchFetch (.noop a b f) s)
  | .decode => .next (latchDecode (.noop a b f) s)
  | .execute => .next (latchExecute (.noop a b f) (aluAdd (operandA s a) (operandB s b)) s)
  | .memory => .next (memoryPass (.noop a b f) s)
  | .writeback => .next (latchRetire (.noop a b f) s)

/-- A data word (R204): inert, the default path. -/
def execData (u : BitVec 7) (op : BitVec 3) (a b : RegIx) (f : Half) (s : State) : Result :=
  match s.slot with
  | .fetch => .next (latchFetch (.data u op a b f) s)
  | .decode => .next (latchDecode (.data u op a b f) s)
  | .execute => .next (latchExecute (.data u op a b f) (aluAdd (operandA s a) (operandB s b)) s)
  | .memory => .next (memoryPass (.data u op a b f) s)
  | .writeback => .next (latchRetire (.data u op a b f) s)

end Sys2Proof.Machine
end

