-- ==== Sys2Proof/Machine/LoadStore.lean ====
section
/-! DEFINITION. The meanings of LW and SW, slot by slot (spec/42_loadstore.md R180 to R182). -/

namespace Sys2Proof.Machine

/-- LW (R180): effective address in Execute, the load in Memory, `r[b]` in Writeback. -/
def execLw (a b : RegIx) (f : Half) (s : State) : Result :=
  match s.slot with
  | .fetch => .next (latchFetch (.lw a b f) s)
  | .decode => .next (latchDecode (.lw a b f) s)
  | .execute => .next (latchExecute (.lw a b f) (aluAddress (operandA s a) s.idex.offset) s)
  | .memory => .next (memoryLoad (.lw a b f) s)
  | .writeback => .next (retireReg (.lw a b f) b s)

/-- SW (R181): effective address and forwarded data in Execute, the store in Memory, no register
write. -/
def execSw (a b : RegIx) (f : Half) (s : State) : Result :=
  match s.slot with
  | .fetch => .next (latchFetch (.sw a b f) s)
  | .decode => .next (latchDecode (.sw a b f) s)
  | .execute => .next (latchExecute (.sw a b f) (aluAddress (operandA s a) s.idex.offset) s)
  | .memory => .next (memoryStore (.sw a b f) s)
  | .writeback => .next (latchRetire (.sw a b f) s)

end Sys2Proof.Machine
end

