-- ==== Sys2Proof/Machine/Dispatch.lean ====
section
/-! DEFINITION. What an instruction does in the pipeline slot the state names (spec/40_pipeline.md
R111, R113, R116: the dispatch tables of the stages, as one). -/

namespace Sys2Proof.Machine

def exec (i : Instr) (s : State) : Host.Outcome State Fault Refusal :=
  match i with
  | .add a b f => Sys2Proof.Machine.execAdd a b f s
  | .nand a b f => Sys2Proof.Machine.execNand a b f s
  | .lw a b f => Sys2Proof.Machine.execLw a b f s
  | .sw a b f => Sys2Proof.Machine.execSw a b f s
  | .beq a b f => Sys2Proof.Machine.execBeq a b f s
  | .jalr a b f => Sys2Proof.Machine.execJalr a b f s
  | .halt a b f => Sys2Proof.Machine.execHalt a b f s
  | .noop a b f => Sys2Proof.Machine.execNoop a b f s
  | .data u op a b f => Sys2Proof.Machine.execData u op a b f s

end Sys2Proof.Machine
end

