-- ==== Sys2Proof/Machine/Cycle.lean ====
section
/-! DEFINITION. One clock cycle from its slots (spec/40_pipeline.md R102 to R118): the hazard unit,
the fetch and decode slots, the arbitration and the commit. Every slot's instruction reads the
committed state S; the commit puts the next state N together from what each slot may write
(spec/10_state.md R38). -/

namespace Sys2Proof.Machine

/-- The load-use check: a LW in IDEX whose destination is regA or regB of the word in IFID, whatever
that word's opcode (R105). -/
def stall (s : State) : Bool :=
  decide (opc s.idex.instr = .lw) &&
    (decide (regB s.idex.instr = regA s.ifid.instr) ||
      decide (regB s.idex.instr = regB s.ifid.instr))

/-- The fetch slot: frozen in a stall, else the word at the pc, else the stand-in (R106, R107). -/
def fetchSlot (s : State) : Result :=
  if stall s then .next s
  else
    match fetchWord s with
    | some w => exec (decode w) (s.inSlot .fetch)
    | none => .next (latchStandIn s)

/-- The decode slot: a bubble in a stall, else the word in IFID (R108, R109). -/
def decodeSlot (s : State) : Result :=
  if stall s then .next (latchBubble s)
  else exec (decode s.ifid.instr) (s.inSlot .decode)

/-- The execute slot: the word in IDEX (R112). -/
def executeSlot (s : State) : Result := exec (decode s.idex.instr) (s.inSlot .execute)

/-- The memory slot: the word in EXMEM (R113). -/
def memorySlot (s : State) : Result := exec (decode s.exmem.instr) (s.inSlot .memory)

/-- The writeback slot: the word in MEMWB (R116), a HALT there being the termination check
(R103). -/
def writebackSlot (s : State) : Result := exec (decode s.memwb.instr) (s.inSlot .writeback)

/-- A taken BEQ's flush overrides `instr` and `ff` of what Fetch latched (R117). -/
def overrideIfid (stage flushed : IfidLatch) : IfidLatch :=
  { stage with instr := flushed.instr, ff := flushed.ff }

/-- The same for what Decode latched (R117). -/
def overrideIdex (stage flushed : IdexLatch) : IdexLatch :=
  { stage with instr := flushed.instr, ff := flushed.ff }

/-- The same for what Execute latched (R117). -/
def overrideExmem (stage flushed : ExmemLatch) : ExmemLatch :=
  { stage with instr := flushed.instr, ff := flushed.ff }

/-- The commit of a cycle without a fault (R117, R118): from the committed state `s` and what the
fetch, decode, execute, memory and writeback slots made of it. A redirect in the memory slot `m`
overrides the pc and the three younger latches. -/
def commit (s f d e m w : State) : State :=
  { s with
    pc := if m.redirect then m.pc else f.pc
    ifid := if m.redirect then overrideIfid f.ifid m.ifid else f.ifid
    idex := if m.redirect then overrideIdex d.idex m.idex else d.idex
    exmem := if m.redirect then overrideExmem e.exmem m.exmem else e.exmem
    memwb := m.memwb
    mem := m.mem
    wbend := w.wbend
    regs := w.regs
    cycles := s.cycles + 1
    slot := .fetch
    redirect := false }

/-- Go on from a next state; a fault or a refusal ends the cycle. -/
def andThen (r : Result) (k : State → Result) : Result :=
  match r with
  | .next t => k t
  | .fault x => .fault x
  | .refused x => .refused x

/-- Go on unless the slot's instruction has left RUNNING: HALT (R103) or a fault (R118) ends the
cycle with the committed state and the new status. -/
def ifRunning (r : Result) (k : State → Result) : Result :=
  andThen r fun t => if t.status = .running then k t else .next t.rest

/-- One cycle of a RUNNING core. The oldest slot comes first: a HALT in MEMWB ends the cycle before
any stage (R103), and DEST_RANGE is taken over MEM_RANGE and FETCH_RANGE (R235). -/
def runCycle (s : State) : Result :=
  ifRunning (writebackSlot s) fun w =>
  ifRunning (memorySlot s) fun m =>
  andThen (executeSlot s) fun e =>
  andThen (decodeSlot s) fun d =>
  andThen (fetchSlot s) fun f =>
  .next (commit s f d e m w)

/-- The state whose next fetched word is `w`. -/
def placeAtPc (s : State) (w : Word) : State := { s with mem := s.mem.write s.pc.toNat w }

end Sys2Proof.Machine
end

