-- ==== Sys2Proof/Machine/Step.lean ====
section
/-! DEFINITION. One step: one clock cycle (spec/40_pipeline.md R100, R102). -/

namespace Sys2Proof.Machine

/-- One clock cycle, defined only when the status is RUNNING (R102); HALTED and FAULTED are terminal
(R123). -/
def step (s : State) : Host.Outcome State Fault Refusal :=
  match s.status with
  | .running => runCycle s
  | .halted => .fault .halted
  | .faulted _ => .fault .faulted

/-- `s` with the word of bits `w` (those above `nbits` zero) in memory at the pc, where the next
step's Fetch stage reads it (R106). The step fetches it when the state is RUNNING with no HALT in
MEMWB, no stall, no taken BEQ and the pc in range, as after reset; it is then the instruction of the
next cycles' other slots (log entry 6). -/
def State.withFetchWord (s : State) (nbits w : Nat) : State :=
  placeAtPc s (BitVec.ofNat 32 (w % 2 ^ nbits))

end Sys2Proof.Machine
end

