-- ==== Sys2Proof/Safety.lean ====
section
/-! DEFINITION. The terms claims are stated in: what a legal state is, which cycles commit, the
fault a cycle raises, one cycle written out in full as spec/40_pipeline.md R122 has it, the
forwarding invariant behind R120, and which latch fields no rule reads
(spec/93_implementation_defined.md U8). -/

namespace Sys2Proof.Safety

open Sys2Proof.Machine

/-! ### Legal states -/

/-- The model's own fields are at rest, as they are between cycles (log entry 1). -/
abbrev AtRest (s : State) : Prop := s.slot = .fetch ∧ s.redirect = false

/-- The memory's list is canonical, names no address outside the array, and the image fits
(R50, R51, R260). -/
abbrev MemoryFits (s : State) : Prop :=
  s.mem.wf = true ∧ s.mem.below s.memWords = true ∧ s.imgLen ≤ s.memWords

/-- A marked slot holds the stand-in NOOP_WORD (R29). -/
abbrev MarkersOnSentinel (s : State) : Prop :=
  (s.ifid.ff ≠ none → s.ifid.instr = noopWord) ∧
  (s.idex.ff ≠ none → s.idex.instr = noopWord) ∧
  (s.exmem.ff ≠ none → s.exmem.instr = noopWord)

/-- The invariant of the machine. -/
abbrev Inv (s : State) : Prop := AtRest s ∧ MemoryFits s ∧ MarkersOnSentinel s

/-! ### Cycles -/

/-- The cycle from `s` is an ordinary one and leads to `t` (R118, R123). -/
abbrev Commits (s t : State) : Prop :=
  s.status = .running ∧ step s = .next t ∧ t.status = .running

/-- A taken BEQ is in the Memory stage: it redirects and flushes in this cycle (R200). -/
abbrev TakenBranch (s : State) : Prop := opc s.exmem.instr = .beq ∧ s.exmem.aluResult = 0

/-- The fault Writeback raises (R232). -/
def writebackFault (s : State) : Option FaultCause :=
  if (opc s.memwb.instr = .add ∨ opc s.memwb.instr = .nand) ∧ 8 ≤ (imm16 s.memwb.instr).toNat then
    some (.destRange (imm16 s.memwb.instr) s.memwb.instr)
  else none

/-- The fault Memory raises (R233, R234). The marker comes first, which matters only for a marked
slot that holds a LW or SW, and no run reaches one (DEDUCED, safe: log entry 5). -/
def memoryFault (s : State) : Option FaultCause :=
  match s.exmem.ff with
  | some p => some (.fetchRange p)
  | none =>
    if (opc s.exmem.instr = .lw ∨ opc s.exmem.instr = .sw) ∧
        ¬ (0 ≤ s.exmem.aluResult.toInt ∧ s.exmem.aluResult.toInt < s.memWords) then
      some (.memRange s.exmem.aluResult s.exmem.instr)
    else none

/-- The fault a cycle takes: Writeback's, being the older instruction's, over Memory's (R235). -/
def cycleFault (s : State) : Option FaultCause := (writebackFault s).or (memoryFault s)

/-! ### One cycle in full (R122), written apart from the machine's own stages -/

/-- R110's loop: the latches in rising precedence, the last match winning. -/
def lastMatch (r : Nat) (raw : Word) (latches : List (Option Nat × Word)) : Word :=
  latches.foldl (fun v l => if l.1 = some r then l.2 else v) raw

/-- R110's `fwdDest`. -/
def fwdDest (inExmem : Bool) (w : Word) : Option Nat :=
  if opc w = .add ∨ opc w = .nand then some (imm16 w).toNat
  else if opc w = .lw ∧ inExmem = false then some (regB w).toNat
  else none

/-- The forwarded operand for source index `r` (R110). -/
def forwarded (s : State) (r : RegIx) (raw : Word) : Word :=
  lastMatch r.toNat raw
    [(fwdDest false s.wbend.instr, s.wbend.writeData),
     (fwdDest false s.memwb.instr, s.memwb.writeData),
     (fwdDest true s.exmem.instr, s.exmem.aluResult)]

/-- R111's table. -/
def alu (o : Opc) (a b off : Word) : Word :=
  match o with
  | .add => a + b
  | .nand => ~~~(a &&& b)
  | .lw => a + off
  | .sw => a + off
  | .beq => a - b
  | .halt => a + b
  | .noop => a + b
  | .jalr => a + b
  | .other => a + b

/-- The registers with register `d` holding `v`; there are eight. -/
def setReg (regs : RegFile) (d : Nat) (v : Word) : RegFile :=
  if h : d < 8 then regs.set d v h else regs

/-- R122, the stages and the commit of a cycle that neither halts nor faults. -/
def ordinaryCycle (s : State) : State :=
  let w := s.ifid.instr
  let e := s.idex.instr
  let m := s.exmem.instr
  let v := s.memwb.instr
  let stalled := opc e = .lw ∧ (regB e = regA w ∨ regB e = regB w)
  let taken := opc m = .beq ∧ s.exmem.aluResult = 0
  let a := forwarded s (regA e) s.idex.readRegA
  let b := forwarded s (regB e) s.idex.readRegB
  let fetched : IfidLatch :=
    if stalled then s.ifid
    else if 0 ≤ s.pc.toInt ∧ s.pc.toInt < s.memWords then
      { instr := s.mem.read s.pc.toNat, pcPlus1 := s.pc + 1, ff := none }
    else { instr := noopWord, pcPlus1 := s.pc + 1, ff := some s.pc }
  let decoded : IdexLatch :=
    if stalled then
      { instr := noopWord, pcPlus1 := s.ifid.pcPlus1, readRegA := 0, readRegB := 0,
        offset := 0, ff := none }
    else
      { instr := w, pcPlus1 := s.ifid.pcPlus1, readRegA := readReg s (regA w),
        readRegB := readReg s (regB w), offset := sext32 (imm16 w), ff := s.ifid.ff }
  let executed : ExmemLatch :=
    { instr := e, branchTarget := s.idex.pcPlus1 + s.idex.offset,
      aluResult := alu (opc e) a b s.idex.offset, readRegB := b, ff := s.idex.ff }
  { s with
    pc := if taken then s.exmem.branchTarget else if stalled then s.pc else s.pc + 1
    ifid := if taken then { fetched with instr := noopWord, ff := none } else fetched
    idex := if taken then { decoded with instr := noopWord, ff := none } else decoded
    exmem := if taken then { executed with instr := noopWord, ff := none } else executed
    memwb :=
      { instr := m
        writeData :=
          if opc m = .lw then s.mem.read s.exmem.aluResult.toNat else s.exmem.aluResult }
    mem :=
      if opc m = .sw then s.mem.write s.exmem.aluResult.toNat s.exmem.readRegB else s.mem
    wbend := s.memwb
    regs :=
      if opc v = .lw then setReg s.regs (regB v).toNat s.memwb.writeData
      else if opc v = .add ∨ opc v = .nand then
        setReg s.regs (imm16 v).toNat s.memwb.writeData
      else s.regs
    cycles := s.cycles + 1 }

/-- R122: one cycle of a RUNNING core: the HALT check first, then the faults, or the commit. -/
def oneCycle (s : State) : State :=
  if opc s.memwb.instr = .halt then { s with status := .halted }
  else
    match cycleFault s with
    | some c => { s with status := .faulted c }
    | none => ordinaryCycle s

/-! ### The forwarding invariant (R120, R121) -/

/-- What the pipeline keeps so that forwarding is exact:
the register file holds what the instruction in WBEND wrote;
an instruction in IDEX that is no NOOP latched the register file's values, but for a register that
the instruction in WBEND has written since;
and no LW in EXMEM loads a source of the instruction in IDEX. -/
def Coherent (s : State) : Prop :=
  (∀ r : RegIx, writeDest s.wbend.instr = some r.toNat → readReg s r = s.wbend.writeData) ∧
  (opc s.idex.instr ≠ .noop →
    (writeDest s.wbend.instr ≠ some (regA s.idex.instr).toNat →
      s.idex.readRegA = readReg s (regA s.idex.instr)) ∧
    (writeDest s.wbend.instr ≠ some (regB s.idex.instr).toNat →
      s.idex.readRegB = readReg s (regB s.idex.instr)) ∧
    (opc s.exmem.instr = .lw →
      regB s.exmem.instr ≠ regA s.idex.instr ∧ regB s.exmem.instr ≠ regB s.idex.instr))

/-! ### The latch fields no rule reads (U8) -/

/-- The ALU result of this class is read: forwarded, used as an address, or compared. -/
def usesAlu (o : Opc) : Prop := o = .add ∨ o = .nand ∨ o = .lw ∨ o = .sw ∨ o = .beq

/-- Operand b of this class is read. -/
def usesB (o : Opc) : Prop := o = .add ∨ o = .nand ∨ o = .sw ∨ o = .beq

/-- The offset of this class is read. -/
def usesOffset (o : Opc) : Prop := o = .lw ∨ o = .sw ∨ o = .beq

/-- The write-back data of this class is read. -/
def usesData (o : Opc) : Prop := o = .add ∨ o = .nand ∨ o = .lw

/-- Two states that agree on everything but latch fields no rule reads while the latch holds the
class of word it holds (R37, U8). -/
structure SameButUnread (s t : State) : Prop where
  pc : s.pc = t.pc
  regs : s.regs = t.regs
  mem : s.mem = t.mem
  imgLen : s.imgLen = t.imgLen
  cycles : s.cycles = t.cycles
  status : s.status = t.status
  memWords : s.memWords = t.memWords
  ifidInstr : s.ifid.instr = t.ifid.instr
  ifidFf : s.ifid.ff = t.ifid.ff
  ifidPcPlus1 : opc s.ifid.instr = .beq → s.ifid.pcPlus1 = t.ifid.pcPlus1
  idexInstr : s.idex.instr = t.idex.instr
  idexFf : s.idex.ff = t.idex.ff
  idexPcPlus1 : opc s.idex.instr = .beq → s.idex.pcPlus1 = t.idex.pcPlus1
  idexA : usesAlu (opc s.idex.instr) → s.idex.readRegA = t.idex.readRegA
  idexB : usesB (opc s.idex.instr) → s.idex.readRegB = t.idex.readRegB
  idexOffset : usesOffset (opc s.idex.instr) → s.idex.offset = t.idex.offset
  exmemInstr : s.exmem.instr = t.exmem.instr
  exmemFf : s.exmem.ff = t.exmem.ff
  exmemTarget : opc s.exmem.instr = .beq → s.exmem.branchTarget = t.exmem.branchTarget
  exmemAlu : usesAlu (opc s.exmem.instr) → s.exmem.aluResult = t.exmem.aluResult
  exmemB : opc s.exmem.instr = .sw → s.exmem.readRegB = t.exmem.readRegB
  memwbInstr : s.memwb.instr = t.memwb.instr
  memwbData : usesData (opc s.memwb.instr) → s.memwb.writeData = t.memwb.writeData
  wbendInstr : s.wbend.instr = t.wbend.instr
  wbendData : usesData (opc s.wbend.instr) → s.wbend.writeData = t.wbend.writeData

end Sys2Proof.Safety
end

