-- ==== Sys2Proof/Certificates/Slice0/Obligations.lean ====
section
/-! DEFINITION. The statements for the provers, from spec/'s numbered rules: the codec, what each
instruction does in each pipeline slot, frames, one cycle, faults and termination, the pipeline from
Execute to its end, reset, and the invariants. -/

open Sys2Proof Sys2Proof.Machine Sys2Proof.Safety

/-! ### Codec -/

/-- Decoding an encoded well-formed instruction gives it back, every operand at every value
(30_encoding.md R78's lossless decoding, with the data words of R72, whose encoding is the model's
own: log entry 9). -/
def Obligations.DecodeInvertsEncode : Prop :=
  ∀ i : Instr, i.wellFormed = true → decode (encode i) = i

/-- R77's opcode map: the class of a word is the row whose match and mask the word meets. -/
def Obligations.OpcodeMapByMatchAndMask : Prop :=
  ∀ w : Word,
    (opc w = .add ↔ w &&& 0xFFC00000 = 0x00000000) ∧
    (opc w = .nand ↔ w &&& 0xFFC00000 = 0x00400000) ∧
    (opc w = .lw ↔ w &&& 0xFFC00000 = 0x00800000) ∧
    (opc w = .sw ↔ w &&& 0xFFC00000 = 0x00C00000) ∧
    (opc w = .beq ↔ w &&& 0xFFC00000 = 0x01000000) ∧
    (opc w = .jalr ↔ w &&& 0xFFC00000 = 0x01400000) ∧
    (opc w = .halt ↔ w &&& 0xFFC00000 = 0x01800000) ∧
    (opc w = .noop ↔ w &&& 0xFFC00000 = 0x01C00000) ∧
    (opc w = .other ↔ w &&& 0xFE000000 ≠ 0)

/-- R73: the fields are bits 21:19, 18:16 and 15:0 of the word, as unsigned numbers, whatever its
class. -/
def Obligations.FieldsAreBitsOfTheWord : Prop :=
  ∀ w : Word,
    (regA w).toNat = w.toNat / 2 ^ 19 % 8 ∧
    (regB w).toNat = w.toNat / 2 ^ 16 % 8 ∧
    (imm16 w).toNat = w.toNat % 2 ^ 16 ∧
    (decode w).regA = regA w ∧ (decode w).regB = regB w ∧ (decode w).imm16 = imm16 w

/-- R78's formula: the encoding of an instruction with opcode `op` is
`(op << 22) | (a << 19) | (b << 16) | f`; a signed offset `o` is placed as `o mod 65536`, and its
sign extension is `o` again; the sentinel is the NOOP with all fields zero (R79). -/
def Obligations.EncodeIsTheShiftedFields : Prop :=
  ∀ (a b : RegIx) (f : Half),
    let word (op : Word) : Word :=
      (op <<< 22) ||| (a.setWidth 32 <<< 19) ||| (b.setWidth 32 <<< 16) ||| f.setWidth 32
    encode (.add a b f) = word 0 ∧ encode (.nand a b f) = word 1 ∧
    encode (.lw a b f) = word 2 ∧ encode (.sw a b f) = word 3 ∧
    encode (.beq a b f) = word 4 ∧ encode (.jalr a b f) = word 5 ∧
    encode (.halt a b f) = word 6 ∧ encode (.noop a b f) = word 7 ∧
    (∀ o : Int, -32768 ≤ o → o ≤ 32767 →
      ((BitVec.ofInt 16 o).toNat : Int) = o % 65536 ∧
      (sext32 (BitVec.ofInt 16 o)).toInt = o) ∧
    noopWord = encode (.noop 0 0 0)

/-- R9: the sign extension's signed value, and its range. -/
def Obligations.SignExtensionValue : Prop :=
  ∀ v : Half,
    (sext32 v).toInt = (if v.toNat < 32768 then (v.toNat : Int) else (v.toNat : Int) - 65536) ∧
    -32768 ≤ (sext32 v).toInt ∧ (sext32 v).toInt ≤ 32767 ∧ (zext32 v).toNat = v.toNat

/-- Words written out from the encodings of 95_test_vectors.md V-EN-1 decode to the instructions
they stand for. -/
def Obligations.SampleWordsDecode : Prop :=
  decode 0x000A0003 = .add 1 2 3 ∧ decode 0x004A0003 = .nand 1 2 3 ∧
  decode 0x0081FFFF = .lw 0 1 0xFFFF ∧ decode 0x00C30005 = .sw 0 3 5 ∧
  decode 0x0100FFFD = .beq 0 0 0xFFFD ∧ decode 0x014A0000 = .jalr 1 2 0 ∧
  decode 0x01880000 = .halt 1 0 0 ∧ decode 0x01FFFFFF = .noop 7 7 0xFFFF ∧
  decode 0x03800000 = .data 1 6 0 0 0

/-! ### What an instruction does, slot by slot

`exec i s` is what `i` does in the pipeline slot the model's own field `s.slot` names (the model's
choice: log entry 1). -/

/-- R106, R108: Fetch and Decode are the same for every instruction. -/
def Obligations.FetchAndDecodeAreUniform : Prop :=
  ∀ (i : Instr) (s : State),
    (s.slot = .fetch →
      exec i s = .next
        { s with
          pc := s.pc + 1
          ifid := { instr := encode i, pcPlus1 := s.pc + 1, ff := none } }) ∧
    (s.slot = .decode →
      exec i s = .next
        { s with
          idex :=
            { instr := encode i, pcPlus1 := s.ifid.pcPlus1, readRegA := readReg s i.regA,
              readRegB := readReg s i.regB, offset := sext32 i.imm16, ff := s.ifid.ff } })

/-- ADD (R160): `a + b` of the forwarded operands, then the write-back data, then `r[d]`. -/
def Obligations.AddResult : Prop :=
  ∀ (a b : RegIx) (d : Half) (s : State),
    (s.slot = .execute →
      exec (.add a b d) s = .next
        { s with
          exmem :=
            { instr := encode (.add a b d), branchTarget := s.idex.pcPlus1 + s.idex.offset,
              aluResult := operandA s a + operandB s b, readRegB := operandB s b,
              ff := s.idex.ff } }) ∧
    (s.slot = .memory → s.exmem.ff = none →
      exec (.add a b d) s = .next
        { s with
          memwb := { instr := encode (.add a b d), writeData := s.exmem.aluResult } }) ∧
    (s.slot = .writeback → ∀ h : d.toNat < 8,
      exec (.add a b d) s = .next
        { s with
          wbend := { instr := encode (.add a b d), writeData := s.memwb.writeData }
          regs := s.regs.set d.toNat s.memwb.writeData h })

/-- NAND (R161): `~(a & b)`, then as ADD. -/
def Obligations.NandResult : Prop :=
  ∀ (a b : RegIx) (d : Half) (s : State),
    (s.slot = .execute →
      exec (.nand a b d) s = .next
        { s with
          exmem :=
            { instr := encode (.nand a b d), branchTarget := s.idex.pcPlus1 + s.idex.offset,
              aluResult := ~~~(operandA s a &&& operandB s b), readRegB := operandB s b,
              ff := s.idex.ff } }) ∧
    (s.slot = .memory → s.exmem.ff = none →
      exec (.nand a b d) s = .next
        { s with
          memwb := { instr := encode (.nand a b d), writeData := s.exmem.aluResult } }) ∧
    (s.slot = .writeback → ∀ h : d.toNat < 8,
      exec (.nand a b d) s = .next
        { s with
          wbend := { instr := encode (.nand a b d), writeData := s.memwb.writeData }
          regs := s.regs.set d.toNat s.memwb.writeData h })

/-- LW (R180): the effective address, the word there, and `r[b]`. -/
def Obligations.LwResult : Prop :=
  ∀ (a b : RegIx) (f : Half) (s : State),
    (s.slot = .execute →
      exec (.lw a b f) s = .next
        { s with
          exmem :=
            { instr := encode (.lw a b f), branchTarget := s.idex.pcPlus1 + s.idex.offset,
              aluResult := operandA s a + s.idex.offset, readRegB := operandB s b,
              ff := s.idex.ff } }) ∧
    (s.slot = .memory → s.exmem.ff = none →
      0 ≤ s.exmem.aluResult.toInt → s.exmem.aluResult.toInt < s.memWords →
      exec (.lw a b f) s = .next
        { s with
          memwb :=
            { instr := encode (.lw a b f), writeData := s.mem.read s.exmem.aluResult.toNat } }) ∧
    (s.slot = .writeback →
      exec (.lw a b f) s = .next
        { s with
          wbend := { instr := encode (.lw a b f), writeData := s.memwb.writeData }
          regs := s.regs.set b.toNat s.memwb.writeData b.isLt })

/-- SW (R181): the effective address and the forwarded data, the store, no register write. -/
def Obligations.SwResult : Prop :=
  ∀ (a b : RegIx) (f : Half) (s : State),
    (s.slot = .execute →
      exec (.sw a b f) s = .next
        { s with
          exmem :=
            { instr := encode (.sw a b f), branchTarget := s.idex.pcPlus1 + s.idex.offset,
              aluResult := operandA s a + s.idex.offset, readRegB := operandB s b,
              ff := s.idex.ff } }) ∧
    (s.slot = .memory → s.exmem.ff = none → s.mem.wf = true →
      0 ≤ s.exmem.aluResult.toInt → s.exmem.aluResult.toInt < s.memWords →
      ∃ m : Memory,
        exec (.sw a b f) s = .next
          { s with
            memwb := { instr := encode (.sw a b f), writeData := s.exmem.aluResult }
            mem := m } ∧
        m.read s.exmem.aluResult.toNat = s.exmem.readRegB ∧
        ∀ k, k ≠ s.exmem.aluResult.toNat → m.read k = s.mem.read k) ∧
    (s.slot = .writeback →
      exec (.sw a b f) s = .next
        { s with
          wbend := { instr := encode (.sw a b f), writeData := s.memwb.writeData } })

/-- BEQ (R200): `a - b` and the target; in Memory, when the result is zero, the redirect and the
flush of the three younger latches, otherwise no action; no register write. The `redirect` field
is the model's own signal to the commit (log entry 1). -/
def Obligations.BeqResult : Prop :=
  ∀ (a b : RegIx) (f : Half) (s : State),
    (s.slot = .execute →
      exec (.beq a b f) s = .next
        { s with
          exmem :=
            { instr := encode (.beq a b f), branchTarget := s.idex.pcPlus1 + s.idex.offset,
              aluResult := operandA s a - operandB s b, readRegB := operandB s b,
              ff := s.idex.ff } }) ∧
    (s.slot = .memory → s.exmem.ff = none → s.exmem.aluResult = 0 →
      exec (.beq a b f) s = .next
        { s with
          pc := s.exmem.branchTarget
          redirect := true
          ifid := { s.ifid with instr := noopWord, ff := none }
          idex := { s.idex with instr := noopWord, ff := none }
          exmem := { s.exmem with instr := noopWord, ff := none }
          memwb := { instr := encode (.beq a b f), writeData := s.exmem.aluResult } }) ∧
    (s.slot = .memory → s.exmem.ff = none → s.exmem.aluResult ≠ 0 →
      exec (.beq a b f) s = .next
        { s with
          memwb := { instr := encode (.beq a b f), writeData := s.exmem.aluResult } }) ∧
    (s.slot = .writeback →
      exec (.beq a b f) s = .next
        { s with
          wbend := { instr := encode (.beq a b f), writeData := s.memwb.writeData } })

/-- HALT (R201, R103): the default `a + b` and no action up to MEMWB; there only the status
changes, to HALTED. -/
def Obligations.HaltResult : Prop :=
  ∀ (a b : RegIx) (f : Half) (s : State),
    (s.slot = .execute →
      exec (.halt a b f) s = .next
        { s with
          exmem :=
            { instr := encode (.halt a b f), branchTarget := s.idex.pcPlus1 + s.idex.offset,
              aluResult := operandA s a + operandB s b, readRegB := operandB s b,
              ff := s.idex.ff } }) ∧
    (s.slot = .memory → s.exmem.ff = none →
      exec (.halt a b f) s = .next
        { s with
          memwb := { instr := encode (.halt a b f), writeData := s.exmem.aluResult } }) ∧
    (s.slot = .writeback → exec (.halt a b f) s = .next { s with status := .halted })

/-- NOOP, JALR and data words (R202, R203, R204): the default `a + b` in Execute, no memory action,
no redirect, no register write. -/
def Obligations.InertWordsResult : Prop :=
  ∀ (i : Instr), i.opc = .noop ∨ i.opc = .jalr ∨ i.opc = .other → ∀ s : State,
    (s.slot = .execute →
      exec i s = .next
        { s with
          exmem :=
            { instr := encode i, branchTarget := s.idex.pcPlus1 + s.idex.offset,
              aluResult := operandA s i.regA + operandB s i.regB, readRegB := operandB s i.regB,
              ff := s.idex.ff } }) ∧
    (s.slot = .memory → s.exmem.ff = none →
      exec i s = .next
        { s with memwb := { instr := encode i, writeData := s.exmem.aluResult } }) ∧
    (s.slot = .writeback →
      exec i s = .next
        { s with wbend := { instr := encode i, writeData := s.memwb.writeData } })

/-! ### Faults of an instruction -/

/-- R232: ADD or NAND in Writeback with a destination field of 8 or more raises DEST_RANGE, and
nothing but the status changes (a fault is a next state: log entry 8). -/
def Obligations.DestinationOutOfRangeFaults : Prop :=
  ∀ (a b : RegIx) (d : Half) (s : State), s.slot = .writeback → 8 ≤ d.toNat →
    exec (.add a b d) s =
      .next { s with status := .faulted (.destRange d (encode (.add a b d))) } ∧
    exec (.nand a b d) s =
      .next { s with status := .faulted (.destRange d (encode (.nand a b d))) } ∧
    FaultCause.code (.destRange d (encode (.add a b d))) = 1

/-- R233: LW or SW in Memory with an effective address outside [0, MEM_WORDS), read as a signed
Word, raises MEM_RANGE; a store that faults writes nothing (a fault is a next state: log
entry 8). -/
def Obligations.AddressOutOfRangeFaults : Prop :=
  ∀ (a b : RegIx) (f : Half) (s : State), s.slot = .memory → s.exmem.ff = none →
    ¬ (0 ≤ s.exmem.aluResult.toInt ∧ s.exmem.aluResult.toInt < s.memWords) →
    exec (.lw a b f) s =
      .next { s with
        status := .faulted (.memRange s.exmem.aluResult (encode (.lw a b f))) } ∧
    exec (.sw a b f) s =
      .next { s with
        status := .faulted (.memRange s.exmem.aluResult (encode (.sw a b f))) } ∧
    FaultCause.code (.memRange s.exmem.aluResult (encode (.lw a b f))) = 2

/-- R114: a marked slot in Memory raises FETCH_RANGE of its fetch address and does nothing else,
whatever the instruction (for a word other than NOOP_WORD, which no run reaches, this is the
model's choice of log entry 5; a fault is a next state: log entry 8). -/
def Obligations.MarkedSlotFaultsInMemory : Prop :=
  ∀ (i : Instr) (s : State) (p : Word), s.slot = .memory → s.exmem.ff = some p →
    exec i s = .next { s with status := .faulted (.fetchRange p) } ∧
    FaultCause.code (.fetchRange p) = 3

/-- No instruction stops the model: in every slot and every state `exec` answers a next state. The
slots are the model's own (log entry 1); that a form that faults answers a next state too, with
status FAULTED (R118, R236), is log entry 8; from the spec comes that no encoding is illegal
(R82). -/
def Obligations.EveryInstructionAnswersNext : Prop :=
  ∀ (i : Instr) (s : State), ∃ t, exec i s = .next t

/-! ### Frames -/

/-- R38's write ownership: Fetch writes pc and IFID, Decode IDEX, Execute EXMEM, Memory MEMWB and
the memory (and, for a taken branch, pc and the three younger latches), Writeback WBEND and the
registers; `status` only by a fault or a HALT; no instruction in any slot writes `cycles`, `imgLen`,
`memWords` or the slot. -/
def Obligations.SlotsWriteOnlyWhatTheyOwn : Prop :=
  ∀ (i : Instr) (s t : State), exec i s = .next t →
    t.imgLen = s.imgLen ∧ t.cycles = s.cycles ∧ t.memWords = s.memWords ∧ t.slot = s.slot ∧
    (s.slot = .fetch → t = { s with pc := t.pc, ifid := t.ifid }) ∧
    (s.slot = .decode → t = { s with idex := t.idex }) ∧
    (s.slot = .execute → t = { s with exmem := t.exmem }) ∧
    (s.slot = .memory →
      t.regs = s.regs ∧ t.wbend = s.wbend ∧
      (t.status = s.status ∨ ∃ c, t = { s with status := .faulted c }) ∧
      (i.opc ≠ .beq →
        t.pc = s.pc ∧ t.ifid = s.ifid ∧ t.idex = s.idex ∧ t.exmem = s.exmem ∧
        t.redirect = s.redirect)) ∧
    (s.slot = .writeback →
      t = { s with regs := t.regs, wbend := t.wbend } ∨
      (i.opc = .halt ∧ t = { s with status := .halted }) ∨
      ∃ c, t = { s with status := .faulted c })

/-- The register frame: an instruction leaves every register unchanged but its destination, and
that one but in Writeback: `imm16` for ADD and NAND, `regB` for LW, none for SW, BEQ, JALR, HALT,
NOOP and data words (R23, R76). -/
def Obligations.RegisterFrame : Prop :=
  ∀ (i : Instr) (s t : State), exec i s = .next t → ∀ r : RegIx,
    ¬ (s.slot = .writeback ∧
        (((i.opc = .add ∨ i.opc = .nand) ∧ i.imm16.toNat = r.toNat) ∨
         (i.opc = .lw ∧ i.regB = r))) →
    readReg t r = readReg s r

/-- The memory frame: every word is unchanged but the one at the effective address of a SW in
Memory (R56); an instruction of any other kind, or in any other slot, changes none. -/
def Obligations.MemoryFrame : Prop :=
  ∀ (i : Instr) (s t : State), s.mem.wf = true → exec i s = .next t → ∀ k : Nat,
    ¬ (s.slot = .memory ∧ i.opc = .sw ∧ k = s.exmem.aluResult.toNat) →
    t.mem.read k = s.mem.read k

/-- R22: every register is an ordinary one, r0 too: what is written is read back, and no other
register changes. -/
def Obligations.EveryRegisterIsOrdinary : Prop :=
  ∀ (s : State) (r q : RegIx) (v : Word),
    readReg (writeReg s r.toNat r.isLt v) q = if q = r then v else readReg s q

/-! ### One cycle -/

/-- R122, one cycle in full: a step of a RUNNING core is that cycle. For a marked slot in EXMEM that
holds a LW or SW with its address out of range, which no run reaches, R122 collects two faults that
R235 does not order, and `memoryFault` takes FETCH_RANGE: the model's choice, log entry 5 (DEDUCED).
A faulting cycle is a next state: log entry 8. `rest` sets the model's own two fields only: log
entry 1. -/
def Obligations.StepIsOneCycleInFull : Prop :=
  ∀ s : State, s.status = .running → step s = .next (oneCycle s).rest

/-- The slots of `exec`, `inSlot`, `commit` and the fields at rest are the model's own (log entry 1);
the spec has one step whose stages read the committed state (R102).
A step runs the decoded instructions: every slot's word, decoded, is run by `exec` in its slot
from the committed state, and the commit takes each slot's part; and from a state with nothing in
flight but the sentinel, the step is `exec` of the instruction at the pc with the cycle counted,
IDEX's pc+1 taken from IFID, and the sentinel's own operands latched. -/
def Obligations.StepRunsTheDecodedInstruction : Prop :=
  (∀ (s w m e d f : State), s.status = .running → stall s = false →
    inRange s.memWords s.pc = true →
    exec (decode s.memwb.instr) (s.inSlot .writeback) = .next w → w.status = .running →
    exec (decode s.exmem.instr) (s.inSlot .memory) = .next m → m.status = .running →
    exec (decode s.idex.instr) (s.inSlot .execute) = .next e →
    exec (decode s.ifid.instr) (s.inSlot .decode) = .next d →
    exec (decode (s.mem.read s.pc.toNat)) (s.inSlot .fetch) = .next f →
    step s = .next (commit s f d e m w)) ∧
  (∀ (i : Instr) (s t : State), s.status = .running → s.slot = .fetch → s.redirect = false →
    s.ifid.instr = noopWord → s.ifid.ff = none → s.idex.instr = noopWord → s.idex.ff = none →
    s.exmem.instr = noopWord → s.exmem.ff = none → s.memwb.instr = noopWord →
    inRange s.memWords s.pc = true → decode (s.mem.read s.pc.toNat) = i →
    exec i s = .next t →
    step s = .next
      { t with
        cycles := s.cycles + 1
        idex :=
          { instr := noopWord, pcPlus1 := s.ifid.pcPlus1, readRegA := readReg s 0,
            readRegB := readReg s 0, offset := 0, ff := none }
        exmem :=
          { instr := noopWord, branchTarget := s.idex.pcPlus1 + s.idex.offset,
            aluResult := operandA s 0 + operandB s 0, readRegB := operandB s 0, ff := none }
        memwb := { instr := noopWord, writeData := s.exmem.aluResult }
        wbend := { instr := noopWord, writeData := s.memwb.writeData } })

/-- R123: no step is defined from HALTED or from FAULTED, which the model makes two named stops (log
entry 7), and from RUNNING the step leads to RUNNING, HALTED or FAULTED, never to a stop of the
model: a cycle that faults is a next state too (log entry 8). -/
def Obligations.StepIsDefinedExactlyWhenRunning : Prop :=
  ∀ s : State,
    (s.status = .halted → step s = .fault .halted) ∧
    (∀ c, s.status = .faulted c → step s = .fault .faulted) ∧
    (s.status = .running → ∃ t, step s = .next t)

/-- R103: with a HALT in MEMWB the cycle's result is the state with status HALTED; no register,
memory, latch, pc or counter changes and no fault is raised, whatever stands in the other slots.
(`rest` sets the model's own two fields only: log entry 1.) -/
def Obligations.HaltInMemwbHaltsTheCore : Prop :=
  ∀ s : State, s.status = .running → opc s.memwb.instr = .halt →
    step s = .next { s.rest with status := .halted }

/-- R236 (with R118, R235): without a HALT in MEMWB, a cycle that raises a fault ends in the state
before it with status FAULTED and its cause, Writeback's fault being taken over Memory's, and the
core stops taking steps; a cycle that raises none ends RUNNING. (`rest` sets the model's own two
fields only: log entry 1; a faulting cycle is a next state, entry 8, and the stop after it entry 7.
Of a marked slot that holds a LW or SW out of range, which no run reaches, Memory's fault is
FETCH_RANGE by the model's choice, entry 5, DEDUCED: R235 does not order the two.) -/
def Obligations.FaultingCycleChangesOnlyTheStatus : Prop :=
  ∀ s : State, s.status = .running → opc s.memwb.instr ≠ .halt →
    (∀ c, writebackFault s = some c ∨ (writebackFault s = none ∧ memoryFault s = some c) →
      step s = .next { s.rest with status := .faulted c } ∧
      step { s.rest with status := .faulted c } = .fault .faulted) ∧
    (writebackFault s = none → memoryFault s = none → ∃ t, Commits s t)

/-- R104: a cycle that commits adds one to the counter; a halting or faulting cycle does not. -/
def Obligations.CyclesCountsCommittedCycles : Prop :=
  ∀ s t : State, step s = .next t →
    (t.status = .running → t.cycles = s.cycles + 1) ∧
    (t.status ≠ .running → t.cycles = s.cycles)

/-- R105, R109: a cycle stalls exactly when IDEX holds a LW whose destination is regA or regB of
the word in IFID, whatever that word's opcode and marker; the pc and IFID are then frozen and a
bubble with IFID's pc+1 enters IDEX (no taken branch being in Memory). -/
def Obligations.LoadUseStall : Prop :=
  ∀ s : State,
    (stall s = true ↔
      opc s.idex.instr = .lw ∧
        (regB s.idex.instr = regA s.ifid.instr ∨ regB s.idex.instr = regB s.ifid.instr)) ∧
    ∀ t : State, Commits s t → ¬ TakenBranch s → stall s = true →
      t.pc = s.pc ∧ t.ifid = s.ifid ∧
      t.idex =
        { instr := noopWord, pcPlus1 := s.ifid.pcPlus1, readRegA := 0, readRegB := 0,
          offset := 0, ff := none }

/-- R109, R269: a stall lasts one cycle: the cycle after a stall cycle is none. -/
def Obligations.StallLastsOneCycle : Prop :=
  ∀ s t : State, Commits s t → stall s = true → stall t = false

/-- R106: the Fetch stage: frozen in a stall; else the committed word at the pc with pc+1 is
latched, or, out of range, the stand-in with the marker (R107), and the pc advances by one; a taken
branch overrides the pc and IFID. -/
def Obligations.FetchLatchesTheWordAtThePc : Prop :=
  ∀ s t : State, Commits s t →
    (¬ TakenBranch s → stall s = true → t.pc = s.pc ∧ t.ifid = s.ifid) ∧
    (¬ TakenBranch s → stall s = false → 0 ≤ s.pc.toInt ∧ s.pc.toInt < s.memWords →
      t.pc = s.pc + 1 ∧
      t.ifid = { instr := s.mem.read s.pc.toNat, pcPlus1 := s.pc + 1, ff := none }) ∧
    (¬ TakenBranch s → stall s = false → ¬ (0 ≤ s.pc.toInt ∧ s.pc.toInt < s.memWords) →
      t.pc = s.pc + 1 ∧ t.ifid = { instr := noopWord, pcPlus1 := s.pc + 1, ff := some s.pc }) ∧
    (TakenBranch s →
      t.pc = s.exmem.branchTarget ∧ t.ifid.instr = noopWord ∧ t.ifid.ff = none)

/-- R108 (and R119): with no stall, Decode latches the word of IFID, whatever its opcode, with
IFID's pc+1 and marker, the sign-extended offset and the register values committed before the
cycle, even for a register this cycle's Writeback writes; a taken branch overrides `instr` and `ff`
only. -/
def Obligations.DecodeReadsTheCommittedRegisters : Prop :=
  ∀ s t : State, Commits s t → stall s = false →
    t.idex.pcPlus1 = s.ifid.pcPlus1 ∧
    t.idex.readRegA = readReg s (regA s.ifid.instr) ∧
    t.idex.readRegB = readReg s (regB s.ifid.instr) ∧
    t.idex.offset = sext32 (imm16 s.ifid.instr) ∧
    (¬ TakenBranch s → t.idex.instr = s.ifid.instr ∧ t.idex.ff = s.ifid.ff)

/-- R110: both operands go through the forwarding unit, and the forwarded operand by precedence:
EXMEM's result of an ADD or NAND, else MEMWB's data, else WBEND's data, of an ADD, NAND or LW
with that destination, else the latched value. -/
def Obligations.ForwardingPrecedence : Prop :=
  ∀ (s : State) (r : RegIx) (raw : Word),
    let alu (w : Word) : Prop := (opc w = .add ∨ opc w = .nand) ∧ (imm16 w).toNat = r.toNat
    let writes (w : Word) : Prop := alu w ∨ (opc w = .lw ∧ regB w = r)
    operandA s r = forward s r s.idex.readRegA ∧ operandB s r = forward s r s.idex.readRegB ∧
    (alu s.exmem.instr → forward s r raw = s.exmem.aluResult) ∧
    (¬ alu s.exmem.instr → writes s.memwb.instr → forward s r raw = s.memwb.writeData) ∧
    (¬ alu s.exmem.instr → ¬ writes s.memwb.instr → writes s.wbend.instr →
      forward s r raw = s.wbend.writeData) ∧
    (¬ alu s.exmem.instr → ¬ writes s.memwb.instr → ¬ writes s.wbend.instr →
      forward s r raw = raw)

/-- R111, R112: with no taken branch, EXMEM gets the word of IDEX, the branch target pc+1 + offset
for every opcode, the ALU result of its opcode over the forwarded operands, and the forwarded
operand b. -/
def Obligations.ExecuteLatchesTheAluResult : Prop :=
  ∀ s t : State, Commits s t → ¬ TakenBranch s →
    let e := s.idex.instr
    let a := operandA s (regA e)
    let b := operandB s (regB e)
    t.exmem =
      { instr := e, branchTarget := s.idex.pcPlus1 + s.idex.offset,
        aluResult :=
          if opc e = .nand then ~~~(a &&& b)
          else if opc e = .lw ∨ opc e = .sw then a + s.idex.offset
          else if opc e = .beq then a - b
          else a + b,
        readRegB := b, ff := s.idex.ff }

/-- R115, R117: a taken BEQ in Memory sets the pc to its target and leaves the sentinel without a
marker in IFID, IDEX and EXMEM, a stall of the same cycle notwithstanding; the BEQ goes on to
MEMWB. -/
def Obligations.TakenBranchRedirectsAndFlushes : Prop :=
  ∀ s t : State, Commits s t → TakenBranch s →
    t.pc = s.exmem.branchTarget ∧
    t.ifid.instr = noopWord ∧ t.ifid.ff = none ∧
    t.idex.instr = noopWord ∧ t.idex.ff = none ∧
    t.exmem.instr = noopWord ∧ t.exmem.ff = none ∧
    t.memwb.instr = s.exmem.instr ∧ t.wbend = s.memwb

/-- R24, R117: the pc after a cycle: the target of a taken BEQ, else unchanged in a stall, else
pc + 1; in a halting or faulting cycle unchanged. -/
def Obligations.PcSequence : Prop :=
  ∀ s t : State, step s = .next t →
    (t.status = .running →
      t.pc = if TakenBranch s then s.exmem.branchTarget
             else if stall s = true then s.pc else s.pc + 1) ∧
    (t.status ≠ .running → t.pc = s.pc)

/-- R56, R58, R113: a step changes memory only when it commits with a SW in EXMEM, and then only at
the SW's effective address, which holds the carried operand. -/
def Obligations.OnlyAStoreChangesMemory : Prop :=
  ∀ s t : State, s.mem.wf = true → step s = .next t → ∀ k : Nat,
    t.mem.read k =
      if t.status = .running ∧ opc s.exmem.instr = .sw ∧ k = s.exmem.aluResult.toNat then
        s.exmem.readRegB
      else s.mem.read k

/-- R23, R116: a step changes a register only when it commits with a LW, ADD or NAND in MEMWB whose
destination it is, and then it holds the write-back data. -/
def Obligations.OnlyWritebackChangesRegisters : Prop :=
  ∀ s t : State, step s = .next t → ∀ r : RegIx,
    let v := s.memwb.instr
    readReg t r =
      if t.status = .running ∧
          ((opc v = .lw ∧ regB v = r) ∨
           ((opc v = .add ∨ opc v = .nand) ∧ (imm16 v).toNat = r.toNat)) then
        s.memwb.writeData
      else readReg s r

/-- R62: a fetch returns the contents committed before its cycle: the store in Memory in the same
cycle is not seen, and the fetch of the next cycle sees it. -/
def Obligations.FetchSeesAStoreFromTheNextCycle : Prop :=
  ∀ s t u : State, Inv s → Commits s t → opc s.exmem.instr = .sw →
    (stall s = false → 0 ≤ s.pc.toInt ∧ s.pc.toInt < s.memWords →
      t.ifid.instr = s.mem.read s.pc.toNat) ∧
    (Commits t u → ¬ TakenBranch t → stall t = false → t.pc = s.exmem.aluResult →
      u.ifid.instr = s.exmem.readRegB)

/-- 20_memory.md R50, 00_scope.md R6: no step changes the capacity or the recorded image length. -/
def Obligations.CapacityAndImageLengthAreFixed : Prop :=
  ∀ s t : State, step s = .next t → t.memWords = s.memWords ∧ t.imgLen = s.imgLen

/-! ### From Execute to the end of the pipeline -/

/-- R160, R161: an ADD or NAND in IDEX, no taken branch being in Memory, whose next three cycles
commit, has put the sum, or the NAND, of its forwarded operands into the register its destination
field names, which is one of the eight. -/
def Obligations.AluResultReachesItsRegister : Prop :=
  ∀ (s s1 s2 s3 : State) (a b : RegIx) (d : Half),
    Commits s s1 → Commits s1 s2 → Commits s2 s3 → ¬ TakenBranch s →
    (decode s.idex.instr = .add a b d →
      ∃ h : d.toNat < 8, s3.regs[d.toNat] = operandA s a + operandB s b) ∧
    (decode s.idex.instr = .nand a b d →
      ∃ h : d.toNat < 8, s3.regs[d.toNat] = ~~~(operandA s a &&& operandB s b))

/-- R180: a LW in IDEX, no taken branch being in Memory, whose next three cycles commit, has loaded
the word at its effective address, which is in range, as memory stood before the LW's Memory
cycle. -/
def Obligations.LoadReachesItsRegister : Prop :=
  ∀ (s s1 s2 s3 : State) (a b : RegIx) (f : Half),
    Commits s s1 → Commits s1 s2 → Commits s2 s3 → ¬ TakenBranch s →
    decode s.idex.instr = .lw a b f →
    let ea := operandA s a + s.idex.offset
    0 ≤ ea.toInt ∧ ea.toInt < s.memWords ∧ readReg s3 b = s1.mem.read ea.toNat

/-- R181: a SW in IDEX, no taken branch being in Memory, whose next two cycles commit, has stored
its forwarded operand b at its effective address, which is in range, and its Memory cycle has
changed no other word. -/
def Obligations.StoreReachesMemory : Prop :=
  ∀ (s s1 s2 : State) (a b : RegIx) (f : Half), Inv s →
    Commits s s1 → Commits s1 s2 → ¬ TakenBranch s → decode s.idex.instr = .sw a b f →
    let ea := operandA s a + s.idex.offset
    0 ≤ ea.toInt ∧ ea.toInt < s.memWords ∧
    ∀ k, s2.mem.read k = if k = ea.toNat then operandB s b else s1.mem.read k

/-- R200, R205: a BEQ in IDEX, no taken branch being in Memory, whose next two cycles commit: when
its forwarded operands are the same Word, the pc is pc+1 + offset and the three younger latches
hold the sentinel; when they differ, nothing is flushed and the next younger word goes on to EXMEM. -/
def Obligations.BranchDecidesInMemory : Prop :=
  ∀ (s s1 s2 : State) (a b : RegIx) (f : Half),
    Commits s s1 → Commits s1 s2 → ¬ TakenBranch s → decode s.idex.instr = .beq a b f →
    (operandA s a = operandB s b →
      s2.pc = s.idex.pcPlus1 + s.idex.offset ∧ s2.ifid.instr = noopWord ∧
      s2.idex.instr = noopWord ∧ s2.exmem.instr = noopWord) ∧
    (operandA s a ≠ operandB s b →
      s2.exmem.instr = s1.idex.instr ∧
      (stall s1 = false → s2.pc = s1.pc + 1 ∧ s2.idex.instr = s1.ifid.instr))

/-- R201: a HALT in IDEX, no taken branch being in Memory, whose next two cycles commit, halts the
core in the cycle after, which changes nothing but the status. -/
def Obligations.HaltStopsAtTheFourthPosition : Prop :=
  ∀ (s s1 s2 : State) (a b : RegIx) (f : Half),
    Commits s s1 → Commits s1 s2 → ¬ TakenBranch s → decode s.idex.instr = .halt a b f →
    step s2 = .next { s2 with status := .halted }

/-! ### Reset -/

/-- R260: the state a reset leaves, for every image that fits and every MEM_TAIL_INIT (`launch` is
the model's boundary: log entry 10). -/
def Obligations.ResetState : Prop :=
  ∀ (n : Nat) (image : List Word) (tail : Nat → Word), image.length ≤ n →
    let s := resetWith n image tail
    launch n image tail = .next s ∧
    s.pc = 0 ∧ (∀ r : RegIx, readReg s r = 0) ∧
    (∀ (k : Nat) (h : k < image.length), s.mem.read k = image[k]) ∧
    (∀ k, image.length ≤ k → k < n → s.mem.read k = tail k) ∧
    s.imgLen = image.length ∧ s.memWords = n ∧
    s.ifid = { instr := noopWord, pcPlus1 := 0, ff := none } ∧
    s.idex =
      { instr := noopWord, pcPlus1 := 0, readRegA := 0, readRegB := 0, offset := 0, ff := none } ∧
    s.exmem =
      { instr := noopWord, branchTarget := 0, aluResult := 0, readRegB := 0, ff := none } ∧
    s.memwb = { instr := noopWord, writeData := 0 } ∧
    s.wbend = { instr := noopWord, writeData := 0 } ∧
    s.cycles = 0 ∧ s.status = .running

/-- R260, R264: an image longer than the memory is refused, and no machine starts (the model's
boundary `launch`: log entry 10). -/
def Obligations.LongImageIsRefused : Prop :=
  ∀ (n : Nat) (image : List Word) (tail : Nat → Word), n < image.length →
    launch n image tail = .refused .imageTooLong

/-! ### Invariants -/

/-- The machine's invariant holds after every reset with an image that fits, and in
`State.reset`. -/
def Obligations.ResetMeetsTheInvariants : Prop :=
  Inv State.reset ∧ Coherent State.reset ∧
  ∀ (n : Nat) (image : List Word) (tail : Nat → Word), image.length ≤ n →
    Inv (resetWith n image tail) ∧ Coherent (resetWith n image tail)

/-- Every step keeps the invariant: the memory's canonical form and bounds, the markers on the
sentinel, the model's own fields at rest. -/
def Obligations.StepKeepsInv : Prop :=
  ∀ s t : State, Inv s → step s = .next t → Inv t

/-- Every step keeps the forwarding invariant. -/
def Obligations.StepKeepsCoherent : Prop :=
  ∀ s t : State, Coherent s → step s = .next t → Coherent t

/-- R120: register dependencies need no software spacing. The operands Execute computes for an
instruction in IDEX are the values its source registers hold once the two instructions before it,
in EXMEM and MEMWB, have written back. -/
def Obligations.ForwardingIsExact : Prop :=
  ∀ s s1 s2 : State, Coherent s → opc s.idex.instr ≠ .noop → Commits s s1 → Commits s1 s2 →
    operandA s (regA s.idex.instr) = readReg s2 (regA s.idex.instr) ∧
    operandB s (regB s.idex.instr) = readReg s2 (regB s.idex.instr)

/-- R37, U8: the latch fields no rule reads never matter: two RUNNING states that agree on all else
step to states that agree on all else, faults and halts included (a faulting cycle is a next state:
log entry 8). -/
def Obligations.UnreadLatchFieldsNeverMatter : Prop :=
  ∀ s t : State, SameButUnread s t → s.status = .running →
    ∃ s' t', step s = .next s' ∧ step t = .next t' ∧ SameButUnread s' t'
end

