-- ==== Sys2Proof/Laws/Codec.lean ====
section
/-! SUPPORT. The codec's laws: the fields of a packed word, and that decoding loses no bit. -/

namespace Sys2Proof

theorem packFields_toNat (u : BitVec 7) (op : BitVec 3) (a b : RegIx) (f : Half) :
    (packFields u op a b f).toNat =
      u.toNat * 2 ^ 25 + op.toNat * 2 ^ 22 + a.toNat * 2 ^ 19 + b.toNat * 2 ^ 16 + f.toNat := by
  have hop := op.isLt; have ha := a.isLt; have hb := b.isLt; have hf := f.isLt
  unfold packFields
  rw [BitVec.toNat_append, ← Nat.shiftLeft_add_eq_or_of_lt hf,
    BitVec.toNat_append, ← Nat.shiftLeft_add_eq_or_of_lt hb,
    BitVec.toNat_append, ← Nat.shiftLeft_add_eq_or_of_lt ha,
    BitVec.toNat_append, ← Nat.shiftLeft_add_eq_or_of_lt hop]
  simp only [Nat.shiftLeft_eq]
  omega

@[simp] theorem upperBits_packFields (u : BitVec 7) (op : BitVec 3) (a b : RegIx) (f : Half) :
    upperBits (packFields u op a b f) = u := by
  have hop := op.isLt; have ha := a.isLt; have hb := b.isLt; have hf := f.isLt; have hu := u.isLt
  apply BitVec.eq_of_toNat_eq
  simp only [upperBits, BitVec.extractLsb'_toNat, packFields_toNat, Nat.shiftRight_eq_div_pow]
  omega

@[simp] theorem opcodeBits_packFields (u : BitVec 7) (op : BitVec 3) (a b : RegIx) (f : Half) :
    opcodeBits (packFields u op a b f) = op := by
  have hop := op.isLt; have ha := a.isLt; have hb := b.isLt; have hf := f.isLt
  apply BitVec.eq_of_toNat_eq
  simp only [opcodeBits, BitVec.extractLsb'_toNat, packFields_toNat, Nat.shiftRight_eq_div_pow]
  omega

@[simp] theorem regA_packFields (u : BitVec 7) (op : BitVec 3) (a b : RegIx) (f : Half) :
    regA (packFields u op a b f) = a := by
  have ha := a.isLt; have hb := b.isLt; have hf := f.isLt
  apply BitVec.eq_of_toNat_eq
  simp only [regA, BitVec.extractLsb'_toNat, packFields_toNat, Nat.shiftRight_eq_div_pow]
  omega

@[simp] theorem regB_packFields (u : BitVec 7) (op : BitVec 3) (a b : RegIx) (f : Half) :
    regB (packFields u op a b f) = b := by
  have hb := b.isLt; have hf := f.isLt
  apply BitVec.eq_of_toNat_eq
  simp only [regB, BitVec.extractLsb'_toNat, packFields_toNat, Nat.shiftRight_eq_div_pow]
  omega

@[simp] theorem imm16_packFields (u : BitVec 7) (op : BitVec 3) (a b : RegIx) (f : Half) :
    imm16 (packFields u op a b f) = f := by
  have hf := f.isLt
  apply BitVec.eq_of_toNat_eq
  simp only [imm16, BitVec.extractLsb'_toNat, packFields_toNat, Nat.shiftRight_eq_div_pow]
  omega

/-- A word is its five fields. -/
theorem packFields_of_word (w : Word) :
    packFields (upperBits w) (opcodeBits w) (regA w) (regB w) (imm16 w) = w := by
  have hw := w.isLt
  apply BitVec.eq_of_toNat_eq
  simp only [packFields_toNat, upperBits, opcodeBits, regA, regB, imm16,
    BitVec.extractLsb'_toNat, Nat.shiftRight_eq_div_pow]
  omega

/-- The nine classes of a word (R72, R77): what its upper and opcode bits are, and its class. -/
theorem opc_cases (w : Word) :
    (upperBits w = 0 ∧ opcodeBits w = 0 ∧ opc w = .add) ∨
    (upperBits w = 0 ∧ opcodeBits w = 1 ∧ opc w = .nand) ∨
    (upperBits w = 0 ∧ opcodeBits w = 2 ∧ opc w = .lw) ∨
    (upperBits w = 0 ∧ opcodeBits w = 3 ∧ opc w = .sw) ∨
    (upperBits w = 0 ∧ opcodeBits w = 4 ∧ opc w = .beq) ∨
    (upperBits w = 0 ∧ opcodeBits w = 5 ∧ opc w = .jalr) ∨
    (upperBits w = 0 ∧ opcodeBits w = 6 ∧ opc w = .halt) ∨
    (upperBits w = 0 ∧ opcodeBits w = 7 ∧ opc w = .noop) ∨
    (upperBits w ≠ 0 ∧ opc w = .other) := by
  have key : ∀ op : BitVec 3,
      (op = 0 ∧ opcOfBits op = .add) ∨ (op = 1 ∧ opcOfBits op = .nand) ∨
        (op = 2 ∧ opcOfBits op = .lw) ∨ (op = 3 ∧ opcOfBits op = .sw) ∨
        (op = 4 ∧ opcOfBits op = .beq) ∨ (op = 5 ∧ opcOfBits op = .jalr) ∨
        (op = 6 ∧ opcOfBits op = .halt) ∨ (op = 7 ∧ opcOfBits op = .noop) := by decide
  by_cases hu : upperBits w = 0
  · unfold opc
    rw [if_pos hu]
    rcases key (opcodeBits w) with h | h | h | h | h | h | h | h <;>
      (rw [hu, h.2, h.1]; decide)
  · unfold opc
    rw [if_neg hu]
    simp only [hu, false_and, false_or, not_false_eq_true, ne_eq, and_self]

/-- Encoding the instruction a word is gives the word back: decoding loses no bit. -/
theorem encode_decode (w : Word) : encode (decode w) = w := by
  have hw := packFields_of_word w
  rcases opc_cases w with h | h | h | h | h | h | h | h | ⟨_, h⟩
  all_goals first
    | (rw [h.1, h.2.1] at hw; simp only [decode, h.2.2, encode]; exact hw)
    | (simp only [decode, h, encode]; exact hw)

@[simp] theorem opc_decode (w : Word) : (decode w).opc = opc w := by
  unfold decode
  cases h : opc w <;> rfl

@[simp] theorem regA_decode (w : Word) : (decode w).regA = regA w := by
  unfold decode
  cases opc w <;> rfl

@[simp] theorem regB_decode (w : Word) : (decode w).regB = regB w := by
  unfold decode
  cases opc w <;> rfl

@[simp] theorem imm16_decode (w : Word) : (decode w).imm16 = imm16 w := by
  unfold decode
  cases opc w <;> rfl

/-- Every word is a well-formed instruction (R84). -/
theorem wellFormed_decode (w : Word) : (decode w).wellFormed = true := by
  rcases opc_cases w with h | h | h | h | h | h | h | h | ⟨hu, h⟩
  all_goals first
    | simp only [decode, h.2.2, Instr.wellFormed]
    | (simp only [decode, h, Instr.wellFormed]; simpa using hu)

@[simp] theorem opc_noopWord : opc noopWord = .noop := by decide

end Sys2Proof
end

