-- ==== Sys2Proof/Laws/State.lean ====
section
/-! SUPPORT. What each named update of the state leaves in each field, so that no later proof
unfolds a record update. -/

namespace Sys2Proof.Machine

section
variable (s : State)

@[simp] theorem inSlot_pc (k : Slot) : (s.inSlot k).pc = s.pc := rfl
@[simp] theorem inSlot_regs (k : Slot) : (s.inSlot k).regs = s.regs := rfl
@[simp] theorem inSlot_mem (k : Slot) : (s.inSlot k).mem = s.mem := rfl
@[simp] theorem inSlot_imgLen (k : Slot) : (s.inSlot k).imgLen = s.imgLen := rfl
@[simp] theorem inSlot_ifid (k : Slot) : (s.inSlot k).ifid = s.ifid := rfl
@[simp] theorem inSlot_idex (k : Slot) : (s.inSlot k).idex = s.idex := rfl
@[simp] theorem inSlot_exmem (k : Slot) : (s.inSlot k).exmem = s.exmem := rfl
@[simp] theorem inSlot_memwb (k : Slot) : (s.inSlot k).memwb = s.memwb := rfl
@[simp] theorem inSlot_wbend (k : Slot) : (s.inSlot k).wbend = s.wbend := rfl
@[simp] theorem inSlot_cycles (k : Slot) : (s.inSlot k).cycles = s.cycles := rfl
@[simp] theorem inSlot_status (k : Slot) : (s.inSlot k).status = s.status := rfl
@[simp] theorem inSlot_memWords (k : Slot) : (s.inSlot k).memWords = s.memWords := rfl
@[simp] theorem inSlot_slot (k : Slot) : (s.inSlot k).slot = k := rfl
@[simp] theorem inSlot_redirect (k : Slot) : (s.inSlot k).redirect = false := rfl

@[simp] theorem rest_pc : s.rest.pc = s.pc := rfl
@[simp] theorem rest_regs : s.rest.regs = s.regs := rfl
@[simp] theorem rest_mem : s.rest.mem = s.mem := rfl
@[simp] theorem rest_imgLen : s.rest.imgLen = s.imgLen := rfl
@[simp] theorem rest_ifid : s.rest.ifid = s.ifid := rfl
@[simp] theorem rest_idex : s.rest.idex = s.idex := rfl
@[simp] theorem rest_exmem : s.rest.exmem = s.exmem := rfl
@[simp] theorem rest_memwb : s.rest.memwb = s.memwb := rfl
@[simp] theorem rest_wbend : s.rest.wbend = s.wbend := rfl
@[simp] theorem rest_cycles : s.rest.cycles = s.cycles := rfl
@[simp] theorem rest_status : s.rest.status = s.status := rfl
@[simp] theorem rest_memWords : s.rest.memWords = s.memWords := rfl
@[simp] theorem rest_slot : s.rest.slot = .fetch := rfl
@[simp] theorem rest_redirect : s.rest.redirect = false := rfl

@[simp] theorem raiseFault_pc (c : FaultCause) : (raiseFault c s).pc = s.pc := rfl
@[simp] theorem raiseFault_regs (c : FaultCause) : (raiseFault c s).regs = s.regs := rfl
@[simp] theorem raiseFault_mem (c : FaultCause) : (raiseFault c s).mem = s.mem := rfl
@[simp] theorem raiseFault_imgLen (c : FaultCause) : (raiseFault c s).imgLen = s.imgLen := rfl
@[simp] theorem raiseFault_ifid (c : FaultCause) : (raiseFault c s).ifid = s.ifid := rfl
@[simp] theorem raiseFault_idex (c : FaultCause) : (raiseFault c s).idex = s.idex := rfl
@[simp] theorem raiseFault_exmem (c : FaultCause) : (raiseFault c s).exmem = s.exmem := rfl
@[simp] theorem raiseFault_memwb (c : FaultCause) : (raiseFault c s).memwb = s.memwb := rfl
@[simp] theorem raiseFault_wbend (c : FaultCause) : (raiseFault c s).wbend = s.wbend := rfl
@[simp] theorem raiseFault_cycles (c : FaultCause) : (raiseFault c s).cycles = s.cycles := rfl
@[simp] theorem raiseFault_status (c : FaultCause) : (raiseFault c s).status = .faulted c := rfl
@[simp] theorem raiseFault_memWords (c : FaultCause) : (raiseFault c s).memWords = s.memWords := rfl
@[simp] theorem raiseFault_slot (c : FaultCause) : (raiseFault c s).slot = s.slot := rfl
@[simp] theorem raiseFault_redirect (c : FaultCause) : (raiseFault c s).redirect = s.redirect := rfl

@[simp] theorem terminate_pc : (terminate s).pc = s.pc := rfl
@[simp] theorem terminate_regs : (terminate s).regs = s.regs := rfl
@[simp] theorem terminate_mem : (terminate s).mem = s.mem := rfl
@[simp] theorem terminate_imgLen : (terminate s).imgLen = s.imgLen := rfl
@[simp] theorem terminate_ifid : (terminate s).ifid = s.ifid := rfl
@[simp] theorem terminate_idex : (terminate s).idex = s.idex := rfl
@[simp] theorem terminate_exmem : (terminate s).exmem = s.exmem := rfl
@[simp] theorem terminate_memwb : (terminate s).memwb = s.memwb := rfl
@[simp] theorem terminate_wbend : (terminate s).wbend = s.wbend := rfl
@[simp] theorem terminate_cycles : (terminate s).cycles = s.cycles := rfl
@[simp] theorem terminate_status : (terminate s).status = .halted := rfl
@[simp] theorem terminate_memWords : (terminate s).memWords = s.memWords := rfl
@[simp] theorem terminate_slot : (terminate s).slot = s.slot := rfl
@[simp] theorem terminate_redirect : (terminate s).redirect = s.redirect := rfl

@[simp] theorem writeReg_pc (d : Nat) (h : d < 8) (v : Word) : (writeReg s d h v).pc = s.pc := rfl
@[simp] theorem writeReg_regs (d : Nat) (h : d < 8) (v : Word) : (writeReg s d h v).regs = s.regs.set d v h := rfl
@[simp] theorem writeReg_mem (d : Nat) (h : d < 8) (v : Word) : (writeReg s d h v).mem = s.mem := rfl
@[simp] theorem writeReg_imgLen (d : Nat) (h : d < 8) (v : Word) : (writeReg s d h v).imgLen = s.imgLen := rfl
@[simp] theorem writeReg_ifid (d : Nat) (h : d < 8) (v : Word) : (writeReg s d h v).ifid = s.ifid := rfl
@[simp] theorem writeReg_idex (d : Nat) (h : d < 8) (v : Word) : (writeReg s d h v).idex = s.idex := rfl
@[simp] theorem writeReg_exmem (d : Nat) (h : d < 8) (v : Word) : (writeReg s d h v).exmem = s.exmem := rfl
@[simp] theorem writeReg_memwb (d : Nat) (h : d < 8) (v : Word) : (writeReg s d h v).memwb = s.memwb := rfl
@[simp] theorem writeReg_wbend (d : Nat) (h : d < 8) (v : Word) : (writeReg s d h v).wbend = s.wbend := rfl
@[simp] theorem writeReg_cycles (d : Nat) (h : d < 8) (v : Word) : (writeReg s d h v).cycles = s.cycles := rfl
@[simp] theorem writeReg_status (d : Nat) (h : d < 8) (v : Word) : (writeReg s d h v).status = s.status := rfl
@[simp] theorem writeReg_memWords (d : Nat) (h : d < 8) (v : Word) : (writeReg s d h v).memWords = s.memWords := rfl
@[simp] theorem writeReg_slot (d : Nat) (h : d < 8) (v : Word) : (writeReg s d h v).slot = s.slot := rfl
@[simp] theorem writeReg_redirect (d : Nat) (h : d < 8) (v : Word) : (writeReg s d h v).redirect = s.redirect := rfl

@[simp] theorem latchFetch_pc (i : Instr) : (latchFetch i s).pc = s.pc + 1 := rfl
@[simp] theorem latchFetch_regs (i : Instr) : (latchFetch i s).regs = s.regs := rfl
@[simp] theorem latchFetch_mem (i : Instr) : (latchFetch i s).mem = s.mem := rfl
@[simp] theorem latchFetch_imgLen (i : Instr) : (latchFetch i s).imgLen = s.imgLen := rfl
@[simp] theorem latchFetch_ifid (i : Instr) : (latchFetch i s).ifid = ⟨encode i, s.pc + 1, none⟩ := rfl
@[simp] theorem latchFetch_idex (i : Instr) : (latchFetch i s).idex = s.idex := rfl
@[simp] theorem latchFetch_exmem (i : Instr) : (latchFetch i s).exmem = s.exmem := rfl
@[simp] theorem latchFetch_memwb (i : Instr) : (latchFetch i s).memwb = s.memwb := rfl
@[simp] theorem latchFetch_wbend (i : Instr) : (latchFetch i s).wbend = s.wbend := rfl
@[simp] theorem latchFetch_cycles (i : Instr) : (latchFetch i s).cycles = s.cycles := rfl
@[simp] theorem latchFetch_status (i : Instr) : (latchFetch i s).status = s.status := rfl
@[simp] theorem latchFetch_memWords (i : Instr) : (latchFetch i s).memWords = s.memWords := rfl
@[simp] theorem latchFetch_slot (i : Instr) : (latchFetch i s).slot = s.slot := rfl
@[simp] theorem latchFetch_redirect (i : Instr) : (latchFetch i s).redirect = s.redirect := rfl

@[simp] theorem latchStandIn_pc : (latchStandIn s).pc = s.pc + 1 := rfl
@[simp] theorem latchStandIn_regs : (latchStandIn s).regs = s.regs := rfl
@[simp] theorem latchStandIn_mem : (latchStandIn s).mem = s.mem := rfl
@[simp] theorem latchStandIn_imgLen : (latchStandIn s).imgLen = s.imgLen := rfl
@[simp] theorem latchStandIn_ifid : (latchStandIn s).ifid = ⟨noopWord, s.pc + 1, some s.pc⟩ := rfl
@[simp] theorem latchStandIn_idex : (latchStandIn s).idex = s.idex := rfl
@[simp] theorem latchStandIn_exmem : (latchStandIn s).exmem = s.exmem := rfl
@[simp] theorem latchStandIn_memwb : (latchStandIn s).memwb = s.memwb := rfl
@[simp] theorem latchStandIn_wbend : (latchStandIn s).wbend = s.wbend := rfl
@[simp] theorem latchStandIn_cycles : (latchStandIn s).cycles = s.cycles := rfl
@[simp] theorem latchStandIn_status : (latchStandIn s).status = s.status := rfl
@[simp] theorem latchStandIn_memWords : (latchStandIn s).memWords = s.memWords := rfl
@[simp] theorem latchStandIn_slot : (latchStandIn s).slot = s.slot := rfl
@[simp] theorem latchStandIn_redirect : (latchStandIn s).redirect = s.redirect := rfl

@[simp] theorem latchDecode_pc (i : Instr) : (latchDecode i s).pc = s.pc := rfl
@[simp] theorem latchDecode_regs (i : Instr) : (latchDecode i s).regs = s.regs := rfl
@[simp] theorem latchDecode_mem (i : Instr) : (latchDecode i s).mem = s.mem := rfl
@[simp] theorem latchDecode_imgLen (i : Instr) : (latchDecode i s).imgLen = s.imgLen := rfl
@[simp] theorem latchDecode_ifid (i : Instr) : (latchDecode i s).ifid = s.ifid := rfl
@[simp] theorem latchDecode_idex (i : Instr) : (latchDecode i s).idex = ⟨encode i, s.ifid.pcPlus1, readReg s i.regA, readReg s i.regB, sext32 i.imm16, s.ifid.ff⟩ := rfl
@[simp] theorem latchDecode_exmem (i : Instr) : (latchDecode i s).exmem = s.exmem := rfl
@[simp] theorem latchDecode_memwb (i : Instr) : (latchDecode i s).memwb = s.memwb := rfl
@[simp] theorem latchDecode_wbend (i : Instr) : (latchDecode i s).wbend = s.wbend := rfl
@[simp] theorem latchDecode_cycles (i : Instr) : (latchDecode i s).cycles = s.cycles := rfl
@[simp] theorem latchDecode_status (i : Instr) : (latchDecode i s).status = s.status := rfl
@[simp] theorem latchDecode_memWords (i : Instr) : (latchDecode i s).memWords = s.memWords := rfl
@[simp] theorem latchDecode_slot (i : Instr) : (latchDecode i s).slot = s.slot := rfl
@[simp] theorem latchDecode_redirect (i : Instr) : (latchDecode i s).redirect = s.redirect := rfl

@[simp] theorem latchBubble_pc : (latchBubble s).pc = s.pc := rfl
@[simp] theorem latchBubble_regs : (latchBubble s).regs = s.regs := rfl
@[simp] theorem latchBubble_mem : (latchBubble s).mem = s.mem := rfl
@[simp] theorem latchBubble_imgLen : (latchBubble s).imgLen = s.imgLen := rfl
@[simp] theorem latchBubble_ifid : (latchBubble s).ifid = s.ifid := rfl
@[simp] theorem latchBubble_idex : (latchBubble s).idex = ⟨noopWord, s.ifid.pcPlus1, 0, 0, 0, none⟩ := rfl
@[simp] theorem latchBubble_exmem : (latchBubble s).exmem = s.exmem := rfl
@[simp] theorem latchBubble_memwb : (latchBubble s).memwb = s.memwb := rfl
@[simp] theorem latchBubble_wbend : (latchBubble s).wbend = s.wbend := rfl
@[simp] theorem latchBubble_cycles : (latchBubble s).cycles = s.cycles := rfl
@[simp] theorem latchBubble_status : (latchBubble s).status = s.status := rfl
@[simp] theorem latchBubble_memWords : (latchBubble s).memWords = s.memWords := rfl
@[simp] theorem latchBubble_slot : (latchBubble s).slot = s.slot := rfl
@[simp] theorem latchBubble_redirect : (latchBubble s).redirect = s.redirect := rfl

@[simp] theorem latchExecute_pc (i : Instr) (alu : Word) : (latchExecute i alu s).pc = s.pc := rfl
@[simp] theorem latchExecute_regs (i : Instr) (alu : Word) : (latchExecute i alu s).regs = s.regs := rfl
@[simp] theorem latchExecute_mem (i : Instr) (alu : Word) : (latchExecute i alu s).mem = s.mem := rfl
@[simp] theorem latchExecute_imgLen (i : Instr) (alu : Word) : (latchExecute i alu s).imgLen = s.imgLen := rfl
@[simp] theorem latchExecute_ifid (i : Instr) (alu : Word) : (latchExecute i alu s).ifid = s.ifid := rfl
@[simp] theorem latchExecute_idex (i : Instr) (alu : Word) : (latchExecute i alu s).idex = s.idex := rfl
@[simp] theorem latchExecute_exmem (i : Instr) (alu : Word) : (latchExecute i alu s).exmem = ⟨encode i, s.idex.pcPlus1 + s.idex.offset, alu, operandB s i.regB, s.idex.ff⟩ := rfl
@[simp] theorem latchExecute_memwb (i : Instr) (alu : Word) : (latchExecute i alu s).memwb = s.memwb := rfl
@[simp] theorem latchExecute_wbend (i : Instr) (alu : Word) : (latchExecute i alu s).wbend = s.wbend := rfl
@[simp] theorem latchExecute_cycles (i : Instr) (alu : Word) : (latchExecute i alu s).cycles = s.cycles := rfl
@[simp] theorem latchExecute_status (i : Instr) (alu : Word) : (latchExecute i alu s).status = s.status := rfl
@[simp] theorem latchExecute_memWords (i : Instr) (alu : Word) : (latchExecute i alu s).memWords = s.memWords := rfl
@[simp] theorem latchExecute_slot (i : Instr) (alu : Word) : (latchExecute i alu s).slot = s.slot := rfl
@[simp] theorem latchExecute_redirect (i : Instr) (alu : Word) : (latchExecute i alu s).redirect = s.redirect := rfl

@[simp] theorem latchMemory_pc (i : Instr) (x : Word) : (latchMemory i x s).pc = s.pc := rfl
@[simp] theorem latchMemory_regs (i : Instr) (x : Word) : (latchMemory i x s).regs = s.regs := rfl
@[simp] theorem latchMemory_mem (i : Instr) (x : Word) : (latchMemory i x s).mem = s.mem := rfl
@[simp] theorem latchMemory_imgLen (i : Instr) (x : Word) : (latchMemory i x s).imgLen = s.imgLen := rfl
@[simp] theorem latchMemory_ifid (i : Instr) (x : Word) : (latchMemory i x s).ifid = s.ifid := rfl
@[simp] theorem latchMemory_idex (i : Instr) (x : Word) : (latchMemory i x s).idex = s.idex := rfl
@[simp] theorem latchMemory_exmem (i : Instr) (x : Word) : (latchMemory i x s).exmem = s.exmem := rfl
@[simp] theorem latchMemory_memwb (i : Instr) (x : Word) : (latchMemory i x s).memwb = ⟨encode i, x⟩ := rfl
@[simp] theorem latchMemory_wbend (i : Instr) (x : Word) : (latchMemory i x s).wbend = s.wbend := rfl
@[simp] theorem latchMemory_cycles (i : Instr) (x : Word) : (latchMemory i x s).cycles = s.cycles := rfl
@[simp] theorem latchMemory_status (i : Instr) (x : Word) : (latchMemory i x s).status = s.status := rfl
@[simp] theorem latchMemory_memWords (i : Instr) (x : Word) : (latchMemory i x s).memWords = s.memWords := rfl
@[simp] theorem latchMemory_slot (i : Instr) (x : Word) : (latchMemory i x s).slot = s.slot := rfl
@[simp] theorem latchMemory_redirect (i : Instr) (x : Word) : (latchMemory i x s).redirect = s.redirect := rfl

@[simp] theorem latchRetire_pc (i : Instr) : (latchRetire i s).pc = s.pc := rfl
@[simp] theorem latchRetire_regs (i : Instr) : (latchRetire i s).regs = s.regs := rfl
@[simp] theorem latchRetire_mem (i : Instr) : (latchRetire i s).mem = s.mem := rfl
@[simp] theorem latchRetire_imgLen (i : Instr) : (latchRetire i s).imgLen = s.imgLen := rfl
@[simp] theorem latchRetire_ifid (i : Instr) : (latchRetire i s).ifid = s.ifid := rfl
@[simp] theorem latchRetire_idex (i : Instr) : (latchRetire i s).idex = s.idex := rfl
@[simp] theorem latchRetire_exmem (i : Instr) : (latchRetire i s).exmem = s.exmem := rfl
@[simp] theorem latchRetire_memwb (i : Instr) : (latchRetire i s).memwb = s.memwb := rfl
@[simp] theorem latchRetire_wbend (i : Instr) : (latchRetire i s).wbend = ⟨encode i, s.memwb.writeData⟩ := rfl
@[simp] theorem latchRetire_cycles (i : Instr) : (latchRetire i s).cycles = s.cycles := rfl
@[simp] theorem latchRetire_status (i : Instr) : (latchRetire i s).status = s.status := rfl
@[simp] theorem latchRetire_memWords (i : Instr) : (latchRetire i s).memWords = s.memWords := rfl
@[simp] theorem latchRetire_slot (i : Instr) : (latchRetire i s).slot = s.slot := rfl
@[simp] theorem latchRetire_redirect (i : Instr) : (latchRetire i s).redirect = s.redirect := rfl

@[simp] theorem flush_pc : (flush s).pc = s.pc := rfl
@[simp] theorem flush_regs : (flush s).regs = s.regs := rfl
@[simp] theorem flush_mem : (flush s).mem = s.mem := rfl
@[simp] theorem flush_imgLen : (flush s).imgLen = s.imgLen := rfl
@[simp] theorem flush_ifid : (flush s).ifid = ⟨noopWord, s.ifid.pcPlus1, none⟩ := rfl
@[simp] theorem flush_idex : (flush s).idex = ⟨noopWord, s.idex.pcPlus1, s.idex.readRegA, s.idex.readRegB, s.idex.offset, none⟩ := rfl
@[simp] theorem flush_exmem : (flush s).exmem = ⟨noopWord, s.exmem.branchTarget, s.exmem.aluResult, s.exmem.readRegB, none⟩ := rfl
@[simp] theorem flush_memwb : (flush s).memwb = s.memwb := rfl
@[simp] theorem flush_wbend : (flush s).wbend = s.wbend := rfl
@[simp] theorem flush_cycles : (flush s).cycles = s.cycles := rfl
@[simp] theorem flush_status : (flush s).status = s.status := rfl
@[simp] theorem flush_memWords : (flush s).memWords = s.memWords := rfl
@[simp] theorem flush_slot : (flush s).slot = s.slot := rfl
@[simp] theorem flush_redirect : (flush s).redirect = s.redirect := rfl

@[simp] theorem redirectTo_pc (t : Word) : (redirectTo t s).pc = t := rfl
@[simp] theorem redirectTo_regs (t : Word) : (redirectTo t s).regs = s.regs := rfl
@[simp] theorem redirectTo_mem (t : Word) : (redirectTo t s).mem = s.mem := rfl
@[simp] theorem redirectTo_imgLen (t : Word) : (redirectTo t s).imgLen = s.imgLen := rfl
@[simp] theorem redirectTo_ifid (t : Word) : (redirectTo t s).ifid = (flush s).ifid := rfl
@[simp] theorem redirectTo_idex (t : Word) : (redirectTo t s).idex = (flush s).idex := rfl
@[simp] theorem redirectTo_exmem (t : Word) : (redirectTo t s).exmem = (flush s).exmem := rfl
@[simp] theorem redirectTo_memwb (t : Word) : (redirectTo t s).memwb = s.memwb := rfl
@[simp] theorem redirectTo_wbend (t : Word) : (redirectTo t s).wbend = s.wbend := rfl
@[simp] theorem redirectTo_cycles (t : Word) : (redirectTo t s).cycles = s.cycles := rfl
@[simp] theorem redirectTo_status (t : Word) : (redirectTo t s).status = s.status := rfl
@[simp] theorem redirectTo_memWords (t : Word) : (redirectTo t s).memWords = s.memWords := rfl
@[simp] theorem redirectTo_slot (t : Word) : (redirectTo t s).slot = s.slot := rfl
@[simp] theorem redirectTo_redirect (t : Word) : (redirectTo t s).redirect = true := rfl

@[simp] theorem placeAtPc_pc (w : Word) : (placeAtPc s w).pc = s.pc := rfl
@[simp] theorem placeAtPc_regs (w : Word) : (placeAtPc s w).regs = s.regs := rfl
@[simp] theorem placeAtPc_mem (w : Word) : (placeAtPc s w).mem = s.mem.write s.pc.toNat w := rfl
@[simp] theorem placeAtPc_imgLen (w : Word) : (placeAtPc s w).imgLen = s.imgLen := rfl
@[simp] theorem placeAtPc_ifid (w : Word) : (placeAtPc s w).ifid = s.ifid := rfl
@[simp] theorem placeAtPc_idex (w : Word) : (placeAtPc s w).idex = s.idex := rfl
@[simp] theorem placeAtPc_exmem (w : Word) : (placeAtPc s w).exmem = s.exmem := rfl
@[simp] theorem placeAtPc_memwb (w : Word) : (placeAtPc s w).memwb = s.memwb := rfl
@[simp] theorem placeAtPc_wbend (w : Word) : (placeAtPc s w).wbend = s.wbend := rfl
@[simp] theorem placeAtPc_cycles (w : Word) : (placeAtPc s w).cycles = s.cycles := rfl
@[simp] theorem placeAtPc_status (w : Word) : (placeAtPc s w).status = s.status := rfl
@[simp] theorem placeAtPc_memWords (w : Word) : (placeAtPc s w).memWords = s.memWords := rfl
@[simp] theorem placeAtPc_slot (w : Word) : (placeAtPc s w).slot = s.slot := rfl
@[simp] theorem placeAtPc_redirect (w : Word) : (placeAtPc s w).redirect = s.redirect := rfl

@[simp] theorem readReg_inSlot (k : Slot) (r : RegIx) : readReg (s.inSlot k) r = readReg s r := rfl
@[simp] theorem forward_inSlot (k : Slot) (r : RegIx) (raw : Word) :
    forward (s.inSlot k) r raw = forward s r raw := rfl
@[simp] theorem operandA_inSlot (k : Slot) (r : RegIx) :
    operandA (s.inSlot k) r = operandA s r := rfl
@[simp] theorem operandB_inSlot (k : Slot) (r : RegIx) :
    operandB (s.inSlot k) r = operandB s r := rfl
@[simp] theorem stall_inSlot (k : Slot) : stall (s.inSlot k) = stall s := rfl
@[simp] theorem fetchWord_inSlot (k : Slot) : fetchWord (s.inSlot k) = fetchWord s := rfl

end

end Sys2Proof.Machine
end

