-- ==== Sys2Proof/Laws/Exec.lean ====
section
/-! SUPPORT. What `exec` does in each slot, once for all instructions, and what each shared operation
of the slots can do. -/

namespace Sys2Proof.Machine

/-- The ALU result of an instruction in Execute (R111). -/
def aluOf (i : Instr) (s : State) : Word :=
  match i.opc with
  | .add => aluAdd (operandA s i.regA) (operandB s i.regB)
  | .nand => aluNand (operandA s i.regA) (operandB s i.regB)
  | .lw => aluAddress (operandA s i.regA) s.idex.offset
  | .sw => aluAddress (operandA s i.regA) s.idex.offset
  | .beq => aluCompare (operandA s i.regA) (operandB s i.regB)
  | .jalr => aluAdd (operandA s i.regA) (operandB s i.regB)
  | .halt => aluAdd (operandA s i.regA) (operandB s i.regB)
  | .noop => aluAdd (operandA s i.regA) (operandB s i.regB)
  | .other => aluAdd (operandA s i.regA) (operandB s i.regB)

/-- The Memory action of an instruction (R113). -/
def memoryOf (i : Instr) (s : State) : State :=
  match i.opc with
  | .lw => memoryLoad i s
  | .sw => memoryStore i s
  | .beq => memoryBranch i s
  | .add => memoryPass i s
  | .nand => memoryPass i s
  | .jalr => memoryPass i s
  | .halt => memoryPass i s
  | .noop => memoryPass i s
  | .other => memoryPass i s

/-- The Writeback action of an instruction (R116, R103). -/
def writebackOf (i : Instr) (s : State) : State :=
  match i.opc with
  | .add => retireDest i i.imm16 s
  | .nand => retireDest i i.imm16 s
  | .lw => retireReg i i.regB s
  | .halt => terminate s
  | .sw => latchRetire i s
  | .beq => latchRetire i s
  | .jalr => latchRetire i s
  | .noop => latchRetire i s
  | .other => latchRetire i s

variable {i : Instr} {s : State}

theorem exec_of_fetch (h : s.slot = .fetch) : exec i s = .next (latchFetch i s) := by
  cases i <;>
    simp only [exec, execAdd, execNand, execLw, execSw, execBeq, execJalr, execHalt, execNoop,
      execData, h]

theorem exec_of_decode (h : s.slot = .decode) : exec i s = .next (latchDecode i s) := by
  cases i <;>
    simp only [exec, execAdd, execNand, execLw, execSw, execBeq, execJalr, execHalt, execNoop,
      execData, h]

theorem exec_of_execute (h : s.slot = .execute) :
    exec i s = .next (latchExecute i (aluOf i s) s) := by
  cases i <;>
    simp only [exec, execAdd, execNand, execLw, execSw, execBeq, execJalr, execHalt, execNoop,
      execData, h] <;> rfl

theorem exec_of_memory (h : s.slot = .memory) : exec i s = .next (memoryOf i s) := by
  cases i <;>
    simp only [exec, execAdd, execNand, execLw, execSw, execBeq, execJalr, execHalt, execNoop,
      execData, h] <;> rfl

theorem exec_of_writeback (h : s.slot = .writeback) : exec i s = .next (writebackOf i s) := by
  cases i <;>
    simp only [exec, execAdd, execNand, execLw, execSw, execBeq, execJalr, execHalt, execNoop,
      execData, h] <;> rfl

/-- A marked slot faults, an unmarked one acts. -/
theorem unlessMarked_cases (s act : State) :
    (∃ p, s.exmem.ff = some p ∧ unlessMarked s act = raiseFault (.fetchRange p) s) ∨
    (s.exmem.ff = none ∧ unlessMarked s act = act) := by
  unfold unlessMarked
  cases h : s.exmem.ff with
  | none => exact .inr ⟨rfl, rfl⟩
  | some p => exact .inl ⟨p, rfl, rfl⟩

theorem unlessMarked_of_none {act : State} (h : s.exmem.ff = none) :
    unlessMarked s act = act := by
  simp [unlessMarked, h]

theorem unlessMarked_of_some {act : State} {p : Word} (h : s.exmem.ff = some p) :
    unlessMarked s act = raiseFault (.fetchRange p) s := by
  simp [unlessMarked, h]

/-- The load in Memory: the word at an address in range, MEM_RANGE otherwise, FETCH_RANGE first. -/
theorem memoryLoad_cases (i : Instr) (s : State) :
    (∃ p, s.exmem.ff = some p ∧ memoryLoad i s = raiseFault (.fetchRange p) s) ∨
    (s.exmem.ff = none ∧ inRange s.memWords s.exmem.aluResult = true ∧
      memoryLoad i s = latchMemory i (s.mem.read s.exmem.aluResult.toNat) s) ∨
    (s.exmem.ff = none ∧ inRange s.memWords s.exmem.aluResult = false ∧
      memoryLoad i s = raiseFault (.memRange s.exmem.aluResult (encode i)) s) := by
  rcases unlessMarked_cases s
    (if inRange s.memWords s.exmem.aluResult then
      latchMemory i (s.mem.read s.exmem.aluResult.toNat) s
    else raiseFault (.memRange s.exmem.aluResult (encode i)) s) with ⟨p, hp, h⟩ | ⟨hn, h⟩
  · exact .inl ⟨p, hp, h⟩
  · right
    cases hr : inRange s.memWords s.exmem.aluResult with
    | true => exact .inl ⟨hn, rfl, by rw [memoryLoad, h, hr, if_pos rfl]⟩
    | false => exact .inr ⟨hn, rfl, by rw [memoryLoad, h, hr, if_neg (by decide)]⟩

/-- The store in Memory: the write at an address in range, MEM_RANGE otherwise, FETCH_RANGE
first. -/
theorem memoryStore_cases (i : Instr) (s : State) :
    (∃ p, s.exmem.ff = some p ∧ memoryStore i s = raiseFault (.fetchRange p) s) ∨
    (s.exmem.ff = none ∧ inRange s.memWords s.exmem.aluResult = true ∧
      memoryStore i s = { latchMemory i s.exmem.aluResult s with
        mem := s.mem.write s.exmem.aluResult.toNat s.exmem.readRegB }) ∨
    (s.exmem.ff = none ∧ inRange s.memWords s.exmem.aluResult = false ∧
      memoryStore i s = raiseFault (.memRange s.exmem.aluResult (encode i)) s) := by
  rcases unlessMarked_cases s
    (if inRange s.memWords s.exmem.aluResult then
      { latchMemory i s.exmem.aluResult s with
        mem := s.mem.write s.exmem.aluResult.toNat s.exmem.readRegB }
    else raiseFault (.memRange s.exmem.aluResult (encode i)) s) with ⟨p, hp, h⟩ | ⟨hn, h⟩
  · exact .inl ⟨p, hp, h⟩
  · right
    cases hr : inRange s.memWords s.exmem.aluResult with
    | true => exact .inl ⟨hn, rfl, by rw [memoryStore, h, hr, if_pos rfl]⟩
    | false => exact .inr ⟨hn, rfl, by rw [memoryStore, h, hr, if_neg (by decide)]⟩

/-- BEQ in Memory: the redirect on a zero, else no action, FETCH_RANGE first. -/
theorem memoryBranch_cases (i : Instr) (s : State) :
    (∃ p, s.exmem.ff = some p ∧ memoryBranch i s = raiseFault (.fetchRange p) s) ∨
    (s.exmem.ff = none ∧ s.exmem.aluResult = 0 ∧
      memoryBranch i s =
        redirectTo s.exmem.branchTarget (latchMemory i s.exmem.aluResult s)) ∨
    (s.exmem.ff = none ∧ s.exmem.aluResult ≠ 0 ∧
      memoryBranch i s = latchMemory i s.exmem.aluResult s) := by
  rcases unlessMarked_cases s
    (if aluIsZero s.exmem.aluResult then
      redirectTo s.exmem.branchTarget (latchMemory i s.exmem.aluResult s)
    else latchMemory i s.exmem.aluResult s) with ⟨p, hp, h⟩ | ⟨hn, h⟩
  · exact .inl ⟨p, hp, h⟩
  · right
    by_cases hz : s.exmem.aluResult = 0
    · exact .inl ⟨hn, hz, by rw [memoryBranch, h, if_pos (by simpa [aluIsZero] using hz)]⟩
    · exact .inr ⟨hn, hz, by rw [memoryBranch, h, if_neg (by simpa [aluIsZero] using hz)]⟩

/-- Writeback of a destination field: the register, or DEST_RANGE. -/
theorem retireDest_cases (i : Instr) (d : Half) (s : State) :
    (∃ h : d.toNat < 8,
      retireDest i d s = writeReg (latchRetire i s) d.toNat h s.memwb.writeData) ∨
    (8 ≤ d.toNat ∧ retireDest i d s = raiseFault (.destRange d (encode i)) s) := by
  unfold retireDest
  by_cases h : d.toNat < 8
  · exact .inl ⟨h, by rw [dif_pos h]⟩
  · exact .inr ⟨by omega, by rw [dif_neg h]⟩

/-- The Memory slot said once: a fault, an instruction handed to MEMWB, a store, or a redirect. -/
theorem memoryOf_cases (i : Instr) (s : State) :
    (∃ c, memoryOf i s = raiseFault c s) ∨
    (∃ x, memoryOf i s = latchMemory i x s) ∨
    (i.opc = .sw ∧ memoryOf i s = { latchMemory i s.exmem.aluResult s with
      mem := s.mem.write s.exmem.aluResult.toNat s.exmem.readRegB }) ∨
    (i.opc = .beq ∧ memoryOf i s =
      redirectTo s.exmem.branchTarget (latchMemory i s.exmem.aluResult s)) := by
  have pass : (∃ c, memoryPass i s = raiseFault c s) ∨
      (∃ x, memoryPass i s = latchMemory i x s) :=
    (unlessMarked_cases s (latchMemory i s.exmem.aluResult s)).imp
      (fun ⟨_, _, h⟩ => ⟨_, h⟩) (fun ⟨_, h⟩ => ⟨_, h⟩)
  unfold memoryOf
  cases i.opc <;> simp only
  case lw =>
    rcases memoryLoad_cases i s with ⟨_, _, h⟩ | ⟨_, _, h⟩ | ⟨_, _, h⟩
    · exact .inl ⟨_, h⟩
    · exact .inr (.inl ⟨_, h⟩)
    · exact .inl ⟨_, h⟩
  case sw =>
    rcases memoryStore_cases i s with ⟨_, _, h⟩ | ⟨_, _, h⟩ | ⟨_, _, h⟩
    · exact .inl ⟨_, h⟩
    · exact .inr (.inr (.inl ⟨trivial, h⟩))
    · exact .inl ⟨_, h⟩
  case beq =>
    rcases memoryBranch_cases i s with ⟨_, _, h⟩ | ⟨_, _, h⟩ | ⟨_, _, h⟩
    · exact .inl ⟨_, h⟩
    · exact .inr (.inr (.inr ⟨trivial, h⟩))
    · exact .inr (.inl ⟨_, h⟩)
  all_goals exact pass.imp id .inl

/-- The Writeback slot said once: DEST_RANGE, no register write, HALT, or one register write. -/
theorem writebackOf_cases (i : Instr) (s : State) :
    (∃ c, writebackOf i s = raiseFault c s) ∨
    writebackOf i s = latchRetire i s ∨
    (i.opc = .halt ∧ writebackOf i s = terminate s) ∨
    (∃ d, ∃ h : d < 8,
      (((i.opc = .add ∨ i.opc = .nand) ∧ i.imm16.toNat = d) ∨
        (i.opc = .lw ∧ i.regB.toNat = d)) ∧
      writebackOf i s = writeReg (latchRetire i s) d h s.memwb.writeData) := by
  unfold writebackOf
  cases i.opc <;> simp only
  case lw => exact .inr (.inr (.inr ⟨_, i.regB.isLt, .inr ⟨trivial, rfl⟩, rfl⟩))
  case halt => exact .inr (.inr (.inl ⟨trivial, trivial⟩))
  case add =>
    rcases retireDest_cases i i.imm16 s with ⟨h, e⟩ | ⟨_, e⟩
    · exact .inr (.inr (.inr ⟨_, h, .inl ⟨by simp, rfl⟩, e⟩))
    · exact .inl ⟨_, e⟩
  case nand =>
    rcases retireDest_cases i i.imm16 s with ⟨h, e⟩ | ⟨_, e⟩
    · exact .inr (.inr (.inr ⟨_, h, .inl ⟨by simp, rfl⟩, e⟩))
    · exact .inl ⟨_, e⟩
  all_goals exact .inr (.inl trivial)

/-- What `exec` answers, by slot. -/
theorem exec_next_cases {t : State} (h : exec i s = .next t) :
    (s.slot = .fetch ∧ t = latchFetch i s) ∨
    (s.slot = .decode ∧ t = latchDecode i s) ∨
    (s.slot = .execute ∧ t = latchExecute i (aluOf i s) s) ∨
    (s.slot = .memory ∧ t = memoryOf i s) ∨
    (s.slot = .writeback ∧ t = writebackOf i s) := by
  cases hs : s.slot
  · rw [exec_of_fetch hs] at h; injection h with h; simp [h]
  · rw [exec_of_decode hs] at h; injection h with h; simp [h]
  · rw [exec_of_execute hs] at h; injection h with h; simp [h]
  · rw [exec_of_memory hs] at h; injection h with h; simp [h]
  · rw [exec_of_writeback hs] at h; injection h with h; simp [h]

/-- The range test is R51's. -/
theorem inRange_iff (n : Nat) (a : Word) :
    inRange n a = true ↔ 0 ≤ a.toInt ∧ a.toInt < (n : Int) := by
  simp [inRange]

/-- An address in range is its own index, below the capacity. -/
theorem toNat_lt_of_inRange {n : Nat} {a : Word} (h : inRange n a = true) : a.toNat < n := by
  have ha := a.isLt
  have ⟨h0, h1⟩ := (inRange_iff n a).1 h
  rw [BitVec.toInt_eq_toNat_cond] at h0 h1
  split at h0 <;> omega

/-- A register read after a write. -/
theorem readReg_writeReg (s : State) (d : Nat) (h : d < 8) (v : Word) (r : RegIx) :
    readReg (writeReg s d h v) r = if d = r.toNat then v else readReg s r := by
  simp only [readReg, writeReg_regs]
  exact Vector.getElem_set h r.isLt

end Sys2Proof.Machine
end

