-- ==== Sys2Proof/Laws/Cycle.lean ====
section
/-! SUPPORT. Said once: what a cycle and a step can answer, from what its slots answer. -/

namespace Sys2Proof.Machine

/-- What the fetch slot makes of the state (R106, R107). -/
def fetchOf (s : State) : State :=
  if stall s = true then s
  else if inRange s.memWords s.pc = true then
    latchFetch (decode (s.mem.read s.pc.toNat)) (s.inSlot .fetch)
  else latchStandIn s

/-- What the decode slot makes of the state (R108, R109). -/
def decodeOf (s : State) : State :=
  if stall s = true then latchBubble s else latchDecode (decode s.ifid.instr) (s.inSlot .decode)

theorem writebackSlot_eq (s : State) :
    writebackSlot s = .next (writebackOf (decode s.memwb.instr) (s.inSlot .writeback)) :=
  exec_of_writeback rfl

theorem memorySlot_eq (s : State) :
    memorySlot s = .next (memoryOf (decode s.exmem.instr) (s.inSlot .memory)) :=
  exec_of_memory rfl

theorem executeSlot_eq (s : State) :
    executeSlot s = .next (latchExecute (decode s.idex.instr)
      (aluOf (decode s.idex.instr) (s.inSlot .execute)) (s.inSlot .execute)) :=
  exec_of_execute rfl

theorem decodeSlot_eq (s : State) : decodeSlot s = .next (decodeOf s) := by
  unfold decodeSlot decodeOf
  split
  · rfl
  · exact exec_of_decode rfl

theorem fetchSlot_eq (s : State) : fetchSlot s = .next (fetchOf s) := by
  unfold fetchSlot fetchOf fetchWord
  by_cases hs : stall s = true
  · rw [if_pos hs, if_pos hs]
  · rw [if_neg hs, if_neg hs]
    by_cases hi : inRange s.memWords s.pc = true
    · rw [if_pos hi, if_pos hi]; exact exec_of_fetch rfl
    · rw [if_neg hi, if_neg hi]

/-- The three ends of a RUNNING core's cycle: Writeback's instruction leaves RUNNING (HALT or
DEST_RANGE), Memory's does (MEM_RANGE or FETCH_RANGE), or the cycle commits. -/
theorem runCycle_cases (s : State) :
    let w := writebackOf (decode s.memwb.instr) (s.inSlot .writeback)
    let m := memoryOf (decode s.exmem.instr) (s.inSlot .memory)
    (w.status ≠ .running ∧ runCycle s = .next w.rest) ∨
    (w.status = .running ∧ m.status ≠ .running ∧ runCycle s = .next m.rest) ∨
    (w.status = .running ∧ m.status = .running ∧
      runCycle s = .next (commit s (fetchOf s) (decodeOf s)
        (latchExecute (decode s.idex.instr)
          (aluOf (decode s.idex.instr) (s.inSlot .execute)) (s.inSlot .execute))
        m w)) := by
  intro w m
  by_cases hw : w.status = .running
  · by_cases hm : m.status = .running
    · refine .inr (.inr ⟨hw, hm, ?_⟩)
      simp only [runCycle, writebackSlot_eq, memorySlot_eq, executeSlot_eq, decodeSlot_eq,
        fetchSlot_eq, ifRunning, andThen]
      rw [if_pos hw, if_pos hm]
    · refine .inr (.inl ⟨hw, hm, ?_⟩)
      simp only [runCycle, writebackSlot_eq, memorySlot_eq, ifRunning, andThen]
      rw [if_pos hw, if_neg hm]
  · refine .inl ⟨hw, ?_⟩
    simp only [runCycle, writebackSlot_eq, ifRunning, andThen]
    rw [if_neg hw]

/-- A step that answers a next state is a cycle of a RUNNING core. -/
theorem step_next {s t : State} (h : step s = .next t) :
    s.status = .running ∧ runCycle s = .next t := by
  unfold step at h
  cases hs : s.status with
  | running => rw [hs] at h; exact ⟨rfl, h⟩
  | halted => rw [hs] at h; cases h
  | faulted c => rw [hs] at h; cases h

theorem step_of_running {s : State} (h : s.status = .running) : step s = runCycle s := by
  simp only [step, h]

end Sys2Proof.Machine
end

