-- ==== Sys2Proof/Laws/Memory.lean ====
section
/-! SUPPORT. The memory's laws: a read after a write, and that every memory operation keeps the
canonical form. -/

namespace Sys2Proof.Machine

@[simp] theorem Memory.read_nil (a : Nat) : Memory.read [] a = Config.unlistedWord := rfl

theorem Memory.wfFrom_mono {lo lo' : Nat} (h : lo' ≤ lo) :
    ∀ m : Memory, m.wfFrom lo = true → m.wfFrom lo' = true
  | [], _ => rfl
  | (k, v) :: m, hm => by
    simp only [Memory.wfFrom, Bool.and_eq_true, decide_eq_true_eq] at hm ⊢
    exact ⟨⟨by omega, hm.1.2⟩, hm.2⟩

/-- An address below every listed one is not listed. -/
theorem Memory.read_below {lo : Nat} :
    ∀ m : Memory, m.wfFrom lo = true → ∀ a, a < lo → m.read a = Config.unlistedWord
  | [], _, _, _ => rfl
  | (k, v) :: m, hm, a, ha => by
    simp only [Memory.wfFrom, Bool.and_eq_true, decide_eq_true_eq] at hm
    have hk : k ≠ a := by omega
    simp only [Memory.read, if_neg hk]
    exact Memory.read_below m hm.2 a (by omega)

/-- A read after a write: the written word at the written address, the old word elsewhere. -/
theorem Memory.read_write {lo : Nat} :
    ∀ m : Memory, m.wfFrom lo = true → ∀ a v b,
      (m.write a v).read b = if b = a then v else m.read b
  | [], _, a, v, b => by
    by_cases hv : v = Config.unlistedWord <;> by_cases hb : b = a <;>
      simp [Memory.write, Memory.read, hv, hb, Ne.symm]
  | (k, x) :: m, hm, a, v, b => by
    have hm' := hm
    simp only [Memory.wfFrom, Bool.and_eq_true, decide_eq_true_eq] at hm'
    have ih := Memory.read_write m hm'.2 a v b
    have low := Memory.read_below m hm'.2
    unfold Memory.write
    split
    · rename_i hak
      split
      · rename_i hv
        by_cases hb : b = a
        · subst hb
          have : k ≠ b := by omega
          simp [Memory.read, this, low b (by omega), hv]
        · simp [hb]
      · by_cases hb : b = a
        · simp [Memory.read, hb]
        · simp [Memory.read, hb, Ne.symm hb]
    · split
      · rename_i hak
        subst hak
        split
        · rename_i hv
          by_cases hb : b = a
          · subst hb
            simp [low b (by omega), hv]
          · simp [Memory.read, hb, Ne.symm hb]
        · by_cases hb : b = a
          · simp [Memory.read, hb]
          · simp [Memory.read, hb, Ne.symm hb]
      · rename_i h1 h2
        by_cases hb : k = b
        · have : ¬ b = a := by omega
          simp [Memory.read, hb, this]
        · simp only [Memory.read, if_neg hb, ih]

/-- The written address reads as the written word. -/
theorem Memory.read_write_same {m : Memory} (h : m.wf = true) (a : Nat) (v : Word) :
    (m.write a v).read a = v := by
  rw [Memory.read_write m h, if_pos rfl]

/-- Every other address reads as before. -/
theorem Memory.read_write_other {m : Memory} (h : m.wf = true) {a b : Nat} (hb : b ≠ a)
    (v : Word) : (m.write a v).read b = m.read b := by
  rw [Memory.read_write m h, if_neg hb]

/-- A write keeps the canonical form. -/
theorem Memory.wfFrom_write {lo a : Nat} (v : Word) :
    ∀ m : Memory, m.wfFrom lo = true → lo ≤ a → (m.write a v).wfFrom lo = true
  | [], _, ha => by
    by_cases hv : v = Config.unlistedWord <;> simp [Memory.write, Memory.wfFrom, hv, ha]
  | (k, x) :: m, hm, ha => by
    have hm' := hm
    simp only [Memory.wfFrom, Bool.and_eq_true, decide_eq_true_eq] at hm'
    unfold Memory.write
    split
    · split
      · exact hm
      · rename_i hak hv
        simp only [Memory.wfFrom, Bool.and_eq_true, decide_eq_true_eq]
        exact ⟨⟨ha, hv⟩, ⟨by omega, hm'.1.2⟩, hm'.2⟩
    · split
      · rename_i hak
        subst hak
        split
        · exact Memory.wfFrom_mono (by omega) m hm'.2
        · rename_i hv
          simp only [Memory.wfFrom, Bool.and_eq_true, decide_eq_true_eq]
          exact ⟨⟨ha, hv⟩, hm'.2⟩
      · simp only [Memory.wfFrom, Bool.and_eq_true, decide_eq_true_eq]
        exact ⟨hm'.1, Memory.wfFrom_write v m hm'.2 (by omega)⟩

theorem Memory.wf_write {m : Memory} (h : m.wf = true) (a : Nat) (v : Word) :
    (m.write a v).wf = true := Memory.wfFrom_write v m h (Nat.zero_le a)

/-- A write below `n` lists no address at `n` or above. -/
theorem Memory.below_write {n a : Nat} (ha : a < n) (v : Word) :
    ∀ m : Memory, m.below n = true → (m.write a v).below n = true
  | [], _ => by
    by_cases hv : v = Config.unlistedWord <;> simp [Memory.write, Memory.below, hv, ha]
  | (k, x) :: m, hm => by
    have hm' : k < n ∧ Memory.below n m = true := by simpa [Memory.below] using hm
    have ih : Memory.below n (Memory.write m a v) = true := Memory.below_write ha v m hm'.2
    unfold Memory.write
    split
    · split
      · exact hm
      · simpa [Memory.below, ha] using hm
    · split
      · split
        · exact hm'.2
        · simpa [Memory.below, ha] using hm'.2
      · simpa [Memory.below, hm'.1] using ih

/-- The memory a reset builds is in canonical form. -/
theorem Memory.wfFrom_fill (tail : Nat → Word) :
    ∀ (n lo : Nat) (image : List Word), (Memory.fill tail lo n image).wfFrom lo = true
  | 0, _, _ => rfl
  | n + 1, lo, [] => by
    have ih := Memory.wfFrom_fill tail n (lo + 1) []
    unfold Memory.fill
    split
    · exact Memory.wfFrom_mono (Nat.le_succ lo) _ ih
    · rename_i hv
      simp [Memory.wfFrom, hv, ih]
  | n + 1, lo, w :: image => by
    have ih := Memory.wfFrom_fill tail n (lo + 1) image
    unfold Memory.fill
    split
    · exact Memory.wfFrom_mono (Nat.le_succ lo) _ ih
    · rename_i hv
      simp [Memory.wfFrom, hv, ih]

/-- The memory a reset builds lists no address beyond its words. -/
theorem Memory.below_fill (tail : Nat → Word) :
    ∀ (n lo : Nat) (image : List Word), (Memory.fill tail lo n image).below (lo + n) = true
  | 0, _, _ => rfl
  | n + 1, lo, [] => by
    have ih := Memory.below_fill tail n (lo + 1) []
    have e : lo + 1 + n = lo + (n + 1) := by omega
    rw [e] at ih
    unfold Memory.fill
    split
    · exact ih
    · simpa [Memory.below] using ih
  | n + 1, lo, w :: image => by
    have ih := Memory.below_fill tail n (lo + 1) image
    have e : lo + 1 + n = lo + (n + 1) := by omega
    rw [e] at ih
    unfold Memory.fill
    split
    · exact ih
    · simpa [Memory.below] using ih

/-- What the memory a reset builds holds: the image, then the tail. -/
theorem Memory.read_fill (tail : Nat → Word) :
    ∀ (n lo : Nat) (image : List Word) (k : Nat), lo ≤ k → k < lo + n →
      (Memory.fill tail lo n image).read k =
        if h : k - lo < image.length then image[k - lo] else tail k
  | 0, _, _, _, _, _ => by omega
  | n + 1, lo, [], k, h1, h2 => by
    simp only [Memory.fill, List.length_nil, Nat.not_lt_zero, dite_false]
    by_cases hk : k = lo
    · subst hk
      split
      · rename_i hz
        exact (Memory.read_below _ (Memory.wfFrom_fill tail n (k + 1) []) k (by omega)).trans
          hz.symm
      · simp [Memory.read]
    · have ih := Memory.read_fill tail n (lo + 1) [] k (by omega) (by omega)
      simp only [List.length_nil, Nat.not_lt_zero, dite_false] at ih
      split
      · exact ih
      · rw [Memory.read, if_neg (by omega)]; exact ih
  | n + 1, lo, w :: image, k, h1, h2 => by
    simp only [Memory.fill]
    by_cases hk : k = lo
    · subst hk
      split
      · rename_i hz
        refine (Memory.read_below _ (Memory.wfFrom_fill tail n (k + 1) image) k (by omega)).trans
          ?_
        simp [hz]
      · simp [Memory.read]
    · have ih := Memory.read_fill tail n (lo + 1) image k (by omega) (by omega)
      have e : k - lo = (k - (lo + 1)) + 1 := by omega
      have ih' : (Memory.fill tail (lo + 1) n image).read k =
          if h : k - lo < (w :: image).length then (w :: image)[k - lo] else tail k := by
        rw [ih]
        simp only [e, List.length_cons, Nat.add_lt_add_iff_right, List.getElem_cons_succ]
      split
      · exact ih'
      · rw [Memory.read, if_neg (by omega)]; exact ih'

theorem reset_mem_wf : State.reset.mem.wf = true := rfl

theorem resetWith_mem_wf (n : Nat) (image : List Word) (tail : Nat → Word) :
    (resetWith n image tail).mem.wf = true := Memory.wfFrom_fill tail n 0 image

end Sys2Proof.Machine
end

