-- ==== Sys2Proof/Laws/PerInstr.lean ====
section
/-! SUPPORT. Statements made of every instruction, one lemma for each constructor. `EncodedFields`:
the word of an instruction carries its fields and, where the term is well-formed, its class
(spec/30_encoding.md R71, R73, R77). -/

namespace Sys2Proof.Laws.EncodedFields

/-- The fields and the class of an instruction's word are the instruction's. -/
def Statement (i : Instr) : Prop :=
  regA (encode i) = i.regA ∧ regB (encode i) = i.regB ∧ imm16 (encode i) = i.imm16 ∧
    (i.wellFormed = true → opc (encode i) = i.opc)

theorem opc_packFields_zero (op : BitVec 3) (a b : RegIx) (f : Half) :
    opc (packFields 0 op a b f) = opcOfBits op := by
  unfold opc
  rw [upperBits_packFields, opcodeBits_packFields]
  rfl

theorem of_opcode {i : Instr} {op : BitVec 3} {a b : RegIx} {f : Half}
    (he : encode i = packFields 0 op a b f) (ho : opcOfBits op = i.opc)
    (ha : a = i.regA) (hb : b = i.regB) (hf : f = i.imm16) : Statement i := by
  refine ⟨?_, ?_, ?_, fun _ => ?_⟩ <;> rw [he]
  · rw [regA_packFields, ha]
  · rw [regB_packFields, hb]
  · rw [imm16_packFields, hf]
  · rw [opc_packFields_zero, ho]

section

variable (a b : RegIx) (f : Half)

theorem add : Statement (.add a b f) := of_opcode rfl rfl rfl rfl rfl

theorem nand : Statement (.nand a b f) := of_opcode rfl rfl rfl rfl rfl

theorem lw : Statement (.lw a b f) := of_opcode rfl rfl rfl rfl rfl

theorem sw : Statement (.sw a b f) := of_opcode rfl rfl rfl rfl rfl

theorem beq : Statement (.beq a b f) := of_opcode rfl rfl rfl rfl rfl

theorem jalr : Statement (.jalr a b f) := of_opcode rfl rfl rfl rfl rfl

theorem halt : Statement (.halt a b f) := of_opcode rfl rfl rfl rfl rfl

theorem noop : Statement (.noop a b f) := of_opcode rfl rfl rfl rfl rfl

end

theorem data (u : BitVec 7) (op : BitVec 3) (a b : RegIx) (f : Half) :
    Statement (.data u op a b f) := by
  refine ⟨regA_packFields u op a b f, regB_packFields u op a b f, imm16_packFields u op a b f,
    fun h => ?_⟩
  have hu : u ≠ 0 := by simpa [Instr.wellFormed] using h
  simp only [encode, opc, upperBits_packFields, if_neg hu, Instr.opc]

end Sys2Proof.Laws.EncodedFields
end

