-- ==== Sys2Proof/Laws/Safety.lean ====
section
/-! SUPPORT. Small lemmas about the terms of Safety.lean: the hazard test, the forwarding unit's two
spellings, what a cycle without a fault tells, and each field of `ordinaryCycle`. -/

namespace Sys2Proof.Safety

open Sys2Proof.Machine

/-- R105's formula. -/
theorem stall_iff (s : State) :
    stall s = true ↔
      opc s.idex.instr = .lw ∧
        (regB s.idex.instr = regA s.ifid.instr ∨ regB s.idex.instr = regB s.ifid.instr) := by
  simp [stall]

/-- The destination a later stage forwards, as the rules name it (R76, R110). -/
theorem writeDest_iff (w : Word) (r : RegIx) :
    writeDest w = some r.toNat ↔
      (opc w = .lw ∧ regB w = r) ∨
        ((opc w = .add ∨ opc w = .nand) ∧ (imm16 w).toNat = r.toNat) := by
  unfold writeDest
  cases opc w <;> simp [BitVec.toNat_inj]

/-- R110's loop is the machine's forwarding unit. -/
theorem forwarded_eq (s : State) (r : RegIx) (raw : Word) :
    forwarded s r raw = forward s r raw := by
  have h1 : ∀ w, fwdDest false w = writeDest w := by
    intro w; unfold fwdDest writeDest; cases opc w <;> simp
  have h2 : ∀ w, fwdDest true w = exmemDest w := by
    intro w; unfold fwdDest exmemDest; cases opc w <;> simp
  simp only [forwarded, lastMatch, List.foldl, h1, h2, forward]

/-- A cycle takes no fault exactly when neither stage raises one. -/
theorem cycleFault_eq_none (s : State) :
    cycleFault s = none ↔ writebackFault s = none ∧ memoryFault s = none := by
  unfold cycleFault
  cases writebackFault s <;> simp

/-- A LW or SW in EXMEM whose cycle takes no fault is unmarked and its address is in range. -/
theorem inRange_of_no_fault {s : State} (h : cycleFault s = none)
    (ho : opc s.exmem.instr = .lw ∨ opc s.exmem.instr = .sw) :
    s.exmem.ff = none ∧ 0 ≤ s.exmem.aluResult.toInt ∧ s.exmem.aluResult.toInt < s.memWords := by
  have hm := ((cycleFault_eq_none s).1 h).2
  unfold memoryFault at hm
  cases hf : s.exmem.ff with
  | some p => rw [hf] at hm; cases hm
  | none =>
    rw [hf] at hm
    simp only at hm
    split at hm
    · cases hm
    · rename_i hn
      exact ⟨rfl, by by_contra hc; exact hn ⟨ho, hc⟩⟩

/-! ### The fields of an ordinary cycle -/

variable (s : State)

theorem ordinaryCycle_pc :
    (ordinaryCycle s).pc =
      if TakenBranch s then s.exmem.branchTarget else if stall s = true then s.pc
      else s.pc + 1 := by
  simp only [ordinaryCycle, stall_iff]

theorem ordinaryCycle_ifid :
    (ordinaryCycle s).ifid =
      let f : IfidLatch :=
        if stall s = true then s.ifid
        else if 0 ≤ s.pc.toInt ∧ s.pc.toInt < s.memWords then
          { instr := s.mem.read s.pc.toNat, pcPlus1 := s.pc + 1, ff := none }
        else { instr := noopWord, pcPlus1 := s.pc + 1, ff := some s.pc }
      if TakenBranch s then { f with instr := noopWord, ff := none } else f := by
  simp only [ordinaryCycle, stall_iff]

theorem ordinaryCycle_idex :
    (ordinaryCycle s).idex =
      let d : IdexLatch :=
        if stall s = true then
          { instr := noopWord, pcPlus1 := s.ifid.pcPlus1, readRegA := 0, readRegB := 0,
            offset := 0, ff := none }
        else
          { instr := s.ifid.instr, pcPlus1 := s.ifid.pcPlus1,
            readRegA := readReg s (regA s.ifid.instr), readRegB := readReg s (regB s.ifid.instr),
            offset := sext32 (imm16 s.ifid.instr), ff := s.ifid.ff }
      if TakenBranch s then { d with instr := noopWord, ff := none } else d := by
  simp only [ordinaryCycle, stall_iff]

theorem ordinaryCycle_exmem :
    (ordinaryCycle s).exmem =
      let a := operandA s (regA s.idex.instr)
      let b := operandB s (regB s.idex.instr)
      let x : ExmemLatch :=
        { instr := s.idex.instr, branchTarget := s.idex.pcPlus1 + s.idex.offset,
          aluResult := alu (opc s.idex.instr) a b s.idex.offset, readRegB := b, ff := s.idex.ff }
      if TakenBranch s then { x with instr := noopWord, ff := none } else x := by
  simp only [ordinaryCycle, forwarded_eq, operandA, operandB]

theorem ordinaryCycle_memwb :
    (ordinaryCycle s).memwb =
      { instr := s.exmem.instr
        writeData :=
          if opc s.exmem.instr = .lw then s.mem.read s.exmem.aluResult.toNat
          else s.exmem.aluResult } := rfl

theorem ordinaryCycle_wbend : (ordinaryCycle s).wbend = s.memwb := rfl

theorem ordinaryCycle_mem :
    (ordinaryCycle s).mem =
      if opc s.exmem.instr = .sw then s.mem.write s.exmem.aluResult.toNat s.exmem.readRegB
      else s.mem := rfl

theorem setReg_getElem (regs : RegFile) (d : Nat) (v : Word) (r : RegIx) :
    (setReg regs d v)[r.toNat]'r.isLt = if d = r.toNat then v else regs[r.toNat]'r.isLt := by
  have := r.isLt
  unfold setReg
  split
  · exact Vector.getElem_set _ r.isLt
  · rw [if_neg (by omega)]

theorem ordinaryCycle_regs :
    (ordinaryCycle s).regs =
      if opc s.memwb.instr = .lw then
        setReg s.regs (regB s.memwb.instr).toNat s.memwb.writeData
      else if opc s.memwb.instr = .add ∨ opc s.memwb.instr = .nand then
        setReg s.regs (imm16 s.memwb.instr).toNat s.memwb.writeData
      else s.regs := rfl

theorem ordinaryCycle_readReg (r : RegIx) :
    readReg (ordinaryCycle s) r =
      if writeDest s.memwb.instr = some r.toNat then s.memwb.writeData else readReg s r := by
  have read_regs : ∀ t : State, ∀ v, t.regs = v → readReg t r = v[r.toNat]'r.isLt := by
    intro t v h; subst h; rfl
  rw [read_regs _ _ (ordinaryCycle_regs s)]
  unfold writeDest
  generalize s.memwb = w
  cases opc w.instr <;> simp [setReg_getElem, readReg]

end Sys2Proof.Safety
end

