-- ==== Sys2Proof/Tests/Slice0.lean ====
section
/-! SUPPORT. The model's own tests. Every expected value is taken from spec/95_test_vectors.md (the
vector is named) or worked out from the rule named; and for every statement of
Certificates/Slice0/Obligations.lean that has hypotheses, a state and operands that meet them. -/

namespace Sys2Proof.Tests

open Sys2Proof.Machine Sys2Proof.Safety

/-! ### Helpers -/

/-- The next state of an outcome; the state after reset stands in for a stop. -/
def out (r : Result) : State :=
  match r with
  | .next t => t
  | .fault _ => .reset
  | .refused _ => .reset

/-- The state one step later. -/
def after (s : State) : State := out (step s)

/-- After reset but for a word in IDEX, with pcPlus1 5 and its operands and offset. -/
def inIdex (w a b off : Word) : State :=
  { State.reset with
    idex := { instr := w, pcPlus1 := 5, readRegA := a, readRegB := b, offset := off, ff := none } }

/-- After reset but for a word in EXMEM, with its ALU result and carried operand, target 40, and a
memory of eight words that holds 33 at 7. -/
def inExmem (w alu b : Word) : State :=
  { State.reset with
    mem := [(7, 33)]
    memWords := 8
    exmem := { instr := w, branchTarget := 40, aluResult := alu, readRegB := b, ff := none } }

/-- After reset but for a word in MEMWB with its data. -/
def inMemwb (w x : Word) : State := { State.reset with memwb := { instr := w, writeData := x } }

/-- After reset but for the words in IDEX and IFID (V-ST's rows). -/
def inIdexIfid (e w : Word) : State :=
  { inIdex e 0 0 0 with ifid := { instr := w, pcPlus1 := 9, ff := none } }

/-- Two producers before a word in IDEX: EXMEM's and MEMWB's (V-FW's rows). -/
def producers (wbend memwb : DataLatch) (x e alu a b : Word) : State :=
  { inIdex e a b 0 with
    wbend := wbend
    memwb := memwb
    exmem := { instr := x, branchTarget := 0, aluResult := alu, readRegB := 0, ff := none } }

/-! ### Well-formedness and the codec -/

theorem test_wellFormed_data : (Instr.data 1 6 0 0 0).wellFormed = true := by decide

/-- A data word has a nonzero bit in 31:25 (R72). -/
theorem test_illFormed_data : (Instr.data 0 6 0 0 0).wellFormed = false := by decide

/-- V-EN-1's and V-EN-2's words, each the fields of R71 written out: opcode at bit 22, regA at 19,
regB at 16. -/
theorem test_decode_add : decode 0x000A0003 = .add 1 2 3 := by decide
theorem test_decode_nand : decode 0x004A0003 = .nand 1 2 3 := by decide
theorem test_decode_lw : decode 0x0081FFFF = .lw 0 1 65535 := by decide
theorem test_decode_sw : decode 0x00C30005 = .sw 0 3 5 := by decide
theorem test_decode_beq : decode 0x0100FFFD = .beq 0 0 65533 := by decide
theorem test_decode_jalr : decode 0x014A0000 = .jalr 1 2 0 := by decide
theorem test_decode_halt : decode 0x01880000 = .halt 1 0 0 := by decide
theorem test_decode_noop : decode 0x01FFFFFF = .noop 7 7 65535 := by decide
theorem test_decode_data : decode 0x03800000 = .data 1 6 0 0 0 := by decide

theorem test_decode_negative : decode 0xFFFFFFF9 = .data 127 7 7 7 65529 := by decide

theorem test_decode_bits :
    decode 0b0000000_010_000_001_0000000000000101 = .lw 0 1 5 := by decide

theorem test_encode :
    encode (.add 1 2 3) = 0x000A0003 ∧ encode (.nand 1 2 3) = 0x004A0003 ∧
    encode (.lw 0 1 5) = 0x00810005 ∧ encode (.sw 0 3 5) = 0x00C30005 ∧
    encode (.beq 1 3 1) = 0x010B0001 ∧ encode (.jalr 1 2 0) = 0x014A0000 ∧
    encode (.halt 0 0 0) = 0x01800000 ∧ encode (.noop 0 0 0) = 0x01C00000 ∧
    encode (.data 127 7 7 7 65535) = 0xFFFFFFFF := by decide

theorem test_decodeTableWord :
    decodeTableWord 32 0x00810005 = some (.lw 0 1 5) ∧
    decodeTableWord 32 0x02000000 = some (.data 1 0 0 0 0) ∧ decodeTableWord 33 0 = none := by
  decide

theorem test_decodeWords_empty : decodeWords [] = .error .noWord := rfl

/-- V-L1-8's sign extensions. -/
theorem test_sext :
    (sext32 0x7FFF).toInt = 32767 ∧ (sext32 0x8000).toInt = -32768 ∧
    (sext32 0xFFFF).toInt = -1 ∧ (sext32 0).toInt = 0 := by decide

/-- R78 places a signed offset modulo 65536; both ends of its range. -/
theorem test_offset_ends :
    BitVec.ofInt 16 (-32768) = 0x8000 ∧ BitVec.ofInt 16 32767 = 0x7FFF := by decide

/-! ### Memory -/

theorem test_memory_form : State.reset.mem.wf = true ∧ Memory.wf [(3, 1), (7, 2)] = true := by
  decide

theorem test_memory_bad_form :
    Memory.wf [(7, 2), (3, 1)] = false ∧ Memory.wf [(3, 0)] = false := by decide

theorem test_memory_write :
    Memory.write [(3, 1)] 7 2 = [(3, 1), (7, 2)] ∧ Memory.write [(3, 1)] 3 0 = [] := by decide

/-! ### The instructions, one slot at a time -/

/-- V-AL-1b: the sum wraps. -/
theorem test_add_execute :
    (out (exec (.add 1 2 3) ((inIdex 0x000A0003 0x7FFFFFFF 1 3).inSlot .execute))).exmem =
      { instr := 0x000A0003, branchTarget := 8, aluResult := 0x80000000, readRegB := 1,
        ff := none } := by decide

/-- R116: the write-back data goes into the register of the destination field, r7 here. -/
theorem test_add_writeback :
    readReg (out (exec (.add 1 2 7) ((inMemwb 0x000A0007 12).inSlot .writeback))) 7 = 12 := by
  decide

/-- V-AL-2a. -/
theorem test_nand_execute :
    (out (exec (.nand 1 2 3) ((inIdex 0x004A0003 0x0F0F0F0F 0xFF00FF00 3).inSlot
      .execute))).exmem.aluResult = 0xF0FFF0FF := by decide

theorem test_nand_writeback :
    readReg (out (exec (.nand 0 0 4) ((inMemwb 0x00400004 0xFFFFFFFF).inSlot .writeback))) 4 =
      0xFFFFFFFF := by decide

/-- V-AL-3b: base 10 and offset -3. -/
theorem test_lw_execute :
    (out (exec (.lw 2 1 0xFFFD) ((inIdex 0x0091FFFD 10 0 0xFFFFFFFD).inSlot
      .execute))).exmem.aluResult = 7 := by decide

/-- The last word of an eight-word memory is loaded (R51). -/
theorem test_lw_memory :
    (out (exec (.lw 0 1 7) ((inExmem 0x00810007 7 0).inSlot .memory))).memwb =
      { instr := 0x00810007, writeData := 33 } := by decide

/-- V-LS-5: the stored operand is latched after forwarding from EXMEM. -/
theorem test_sw_execute :
    (out (exec (.sw 0 3 5) ((producers ⟨noopWord, 0⟩ ⟨noopWord, 0⟩ 0x00120003 0x00C30005 42 0
      0).inSlot .execute))).exmem.readRegB = 42 := by decide

/-- V-LS-2: mem[5] = 42. -/
theorem test_sw_memory :
    (out (exec (.sw 0 3 5) ((inExmem 0x00C30005 5 42).inSlot .memory))).mem =
      [(5, 42), (7, 33)] := by decide

/-- V-AL-4b and V-AL-4d: unequal operands never give zero. -/
theorem test_beq_execute :
    (out (exec (.beq 1 2 0) ((inIdex 0x010A0000 3 4 0).inSlot .execute))).exmem.aluResult =
      0xFFFFFFFF ∧
    (out (exec (.beq 1 2 0) ((inIdex 0x010A0000 0 0x80000000 0).inSlot
      .execute))).exmem.aluResult = 0x80000000 := by decide

/-- R200: taken on a zero, not on a one. -/
theorem test_beq_memory :
    (out (exec (.beq 0 0 2) ((inExmem 0x01000002 0 0).inSlot .memory))).pc = 40 ∧
    (out (exec (.beq 0 0 2) ((inExmem 0x01000002 1 0).inSlot .memory))).pc = 0 := by decide

/-- R203: no link and no jump; V-AL-4e's sum. -/
theorem test_jalr :
    (out (exec (.jalr 1 2 0) ((inIdex 0x014A0000 2 3 0).inSlot .execute))).exmem.aluResult = 5 ∧
    (out (exec (.jalr 1 2 0) ((inMemwb 0x014A0000 5).inSlot .writeback))).regs =
      State.reset.regs := by decide

/-- R103: a HALT in MEMWB halts the core, whatever its fields. -/
theorem test_halt :
    (out (exec (.halt 1 0 0) ((inMemwb 0x01880000 5).inSlot .writeback))).status = .halted := by
  decide

theorem test_noop :
    (out (exec (.noop 0 0 0) ((inExmem 0x01C00000 9 9).inSlot .memory))).mem = [(7, 33)] ∧
    (out (exec (.noop 0 0 0) ((inMemwb 0x01C00000 9).inSlot .writeback))).regs =
      State.reset.regs := by decide

/-- R204: a data word that spells a HALT halts nothing. -/
theorem test_data :
    (out (exec (.data 1 6 0 0 0) ((inMemwb 0x03800000 5).inSlot .writeback))).status = .running ∧
    (out (exec (.data 1 6 0 0 0) ((inIdex 0x03800000 2 3 0).inSlot .execute))).exmem.aluResult =
      5 := by decide

/-! ### Units -/

/-- V-ST-1 to V-ST-10. -/
theorem test_stall :
    stall (inIdexIfid 0x00810005 0x00080002) = true ∧
    stall (inIdexIfid 0x00810005 0x00010002) = true ∧
    stall (inIdexIfid 0x00810005 0x00000001) = false ∧
    stall (inIdexIfid 0x00810005 0x00C10003) = true ∧
    stall (inIdexIfid 0x00800005 0x01C00000) = true ∧
    stall (inIdexIfid 0x00870005 0xFFFFFFFF) = true ∧
    stall (inIdexIfid 0x00000001 0x00090002) = false ∧
    stall (inIdexIfid 0x00C10005 0x00090002) = false ∧
    stall (inIdexIfid 0x008A0000 0x00080003) = false ∧
    stall (inIdexIfid 0x00810005 0x008A0000) = true := by decide

/-- V-FW-1 to V-FW-4: precedence, and no forwarding of a LW from EXMEM. -/
theorem test_forward :
    operandA (producers ⟨noopWord, 0⟩ ⟨0x00810000, 7⟩ 0x00120001 0x00080003 10 0 0) 1 = 10 ∧
    operandB (producers ⟨0x00810000, 100⟩ ⟨0x00120001, 10⟩ 0x00520001 0x00090003 0xFFFFFFFA 0 0) 1 =
      0xFFFFFFFA ∧
    operandA (producers ⟨0x00830000, 8⟩ ⟨0x00000003, 9⟩ noopWord 0x00180004 0 1 0) 3 = 9 ∧
    operandA (producers ⟨noopWord, 0⟩ ⟨noopWord, 0⟩ 0x00810000 0x00090002 5 4 4) 1 = 4 := by decide

/-- V-FW-5 to V-FW-9: no producer but ADD, NAND and LW, r0 is forwarded, a destination of 9 never
matches. -/
theorem test_forward_rest :
    operandA (producers ⟨noopWord, 0⟩ ⟨noopWord, 0⟩ 0x00C10005 0x00090002 5 4 4) 1 = 4 ∧
    operandB (producers ⟨noopWord, 0⟩ ⟨noopWord, 0⟩ 0x00000000 0x00000001 6 0 0) 0 = 6 ∧
    operandB (producers ⟨0x00400004, 0xFFFFFFFF⟩ ⟨noopWord, 0⟩ noopWord 0x00C40002 0 0 0) 4 =
      0xFFFFFFFF ∧
    operandA (producers ⟨noopWord, 0⟩ ⟨0x00000009, 1⟩ noopWord 0x00090002 0 3 3) 1 = 3 ∧
    operandA (producers ⟨noopWord, 0⟩ ⟨noopWord, 0⟩ 0x01090000 0x00090002 0 3 3) 1 = 3 := by decide

/-! ### One step -/

/-- V-RS-2: the first cycle after reset with `lw 0 1 5` at address 0. -/
theorem test_first_cycle :
    let t := after (resetWith 8 [0x00810005] fun _ => 0)
    t.pc = 1 ∧ t.cycles = 1 ∧ t.ifid = { instr := 0x00810005, pcPlus1 := 1, ff := none } ∧
    t.regs = State.reset.regs ∧ t.mem = [(0, 0x00810005)] := by decide

/-- The host's placed word is the one the next step fetches, and the step is `exec` of it with the
cycle counted. -/
theorem test_withFetchWord :
    (after (State.reset.withFetchWord 32 0x004A0003)).ifid.instr = encode (.nand 1 2 3) ∧
    after (State.reset.withFetchWord 32 0x004A0003) =
      { out (exec (.nand 1 2 3) (State.reset.withFetchWord 32 0x004A0003)) with
        cycles := 1 } := by decide

/-- V-HZ-6, cycle 4: the flush wins over the stall. -/
theorem test_flush_over_stall :
    let s : State :=
      { inIdexIfid 0x00810006 0x00090002 with
        pc := 3
        exmem := { instr := 0x01000002, branchTarget := 3, aluResult := 0, readRegB := 0,
                   ff := none } }
    stall s = true ∧ (after s).pc = 3 ∧ (after s).ifid.instr = noopWord ∧
    (after s).idex.instr = noopWord ∧ (after s).exmem.instr = noopWord ∧
    (after s).memwb.instr = 0x01000002 := by decide

/-- V-EX-5, cycle 5: DEST_RANGE wins over MEM_RANGE. -/
theorem test_fault_priority :
    (after { inExmem 0x0081FFFF 0xFFFFFFFF 0 with
      memwb := { instr := 0x00000009, writeData := 0 } }).status =
      .faulted (.destRange 9 0x00000009) := by decide

/-- R235: a HALT in MEMWB is seen before the fault of the slot in EXMEM. -/
theorem test_halt_over_fault :
    (after { inExmem 0x0081FFFF 0xFFFFFFFF 0 with
      memwb := { instr := 0x01800000, writeData := 0 } }).status = .halted := by decide

/-- V-CT-12: a HALT in the last word of memory; the fetch beyond it is marked, not a fault. -/
theorem test_marked_fetch :
    let t := after { State.reset with pc := 4, memWords := 4 }
    t.status = .running ∧ t.ifid = { instr := noopWord, pcPlus1 := 5, ff := some 4 } := by decide

/-- V-RS-3: an image longer than the memory starts no machine. -/
theorem test_long_image : launch 1 [0, 0] (fun _ => 0) = .refused .imageTooLong := rfl

/-! ### The statements' hypotheses are met

One theorem for each statement with hypotheses, named after it. `commits` says that a step of the
state commits. -/

theorem witness_DecodeInvertsEncode :
    (Instr.lw 7 7 0xFFFF).wellFormed = true ∧ (Instr.data 127 7 7 7 0xFFFF).wellFormed = true := by
  decide

theorem witness_FetchAndDecodeAreUniform :
    (State.reset.inSlot .fetch).slot = .fetch ∧ (State.reset.inSlot .decode).slot = .decode := by
  decide

/-- AddResult and NandResult, the greatest legal destination included. -/
theorem witness_AddResult_NandResult :
    ((inIdex 0 0 0 0).inSlot .execute).slot = .execute ∧
    ((inExmem 0 0 0).inSlot .memory).slot = .memory ∧
    ((inExmem 0 0 0).inSlot .memory).exmem.ff = none ∧
    ((inMemwb 0 0).inSlot .writeback).slot = .writeback ∧ (7 : Half).toNat < 8 := by decide

/-- LwResult and SwResult, at the lowest and the highest address of an eight-word memory. -/
theorem witness_LwResult_SwResult :
    let lo := (inExmem 0 0 0).inSlot .memory
    let hi := (inExmem 0 7 0).inSlot .memory
    (lo.slot = .memory ∧ lo.exmem.ff = none ∧ lo.mem.wf = true ∧ 0 ≤ lo.exmem.aluResult.toInt ∧
      lo.exmem.aluResult.toInt < lo.memWords) ∧
    (hi.slot = .memory ∧ hi.exmem.ff = none ∧ hi.mem.wf = true ∧ 0 ≤ hi.exmem.aluResult.toInt ∧
      hi.exmem.aluResult.toInt < hi.memWords) ∧
    (hi.inSlot .execute).slot = .execute ∧ (hi.inSlot .writeback).slot = .writeback := by decide

/-- BeqResult: a zero and the two values beside it. -/
theorem witness_BeqResult :
    let z := (inExmem 0x01000000 0 0).inSlot .memory
    let p := (inExmem 0x01000000 1 0).inSlot .memory
    let m := (inExmem 0x01000000 0xFFFFFFFF 0).inSlot .memory
    z.slot = .memory ∧ z.exmem.ff = none ∧ z.exmem.aluResult = 0 ∧
    p.slot = .memory ∧ p.exmem.ff = none ∧ p.exmem.aluResult ≠ 0 ∧
    m.slot = .memory ∧ m.exmem.ff = none ∧ m.exmem.aluResult ≠ 0 ∧
    (z.inSlot .execute).slot = .execute ∧ (z.inSlot .writeback).slot = .writeback := by decide

/-- HaltResult and InertWordsResult, each of the three kinds of inert word. -/
theorem witness_HaltResult_InertWordsResult :
    (Instr.noop 7 7 1).opc = .noop ∧ (Instr.jalr 1 2 0).opc = .jalr ∧
    (Instr.data 1 6 0 0 0).opc = .other ∧
    ((inIdex 0 0 0 0).inSlot .execute).slot = .execute ∧
    ((inExmem 0 0 0).inSlot .memory).slot = .memory ∧
    ((inExmem 0 0 0).inSlot .memory).exmem.ff = none ∧
    ((inMemwb 0 0).inSlot .writeback).slot = .writeback := by decide

theorem witness_DestinationOutOfRangeFaults :
    ((inMemwb 8 0).inSlot .writeback).slot = .writeback ∧ 8 ≤ (8 : Half).toNat ∧
    8 ≤ (0xFFFF : Half).toNat := by decide

/-- AddressOutOfRangeFaults: one below the memory, one above, and the two extreme Words. -/
theorem witness_AddressOutOfRangeFaults :
    ∀ ea ∈ [(0xFFFFFFFF : Word), 8, 0x7FFFFFFF, 0x80000000],
      let s := (inExmem 0x00810005 ea 0).inSlot .memory
      s.slot = .memory ∧ s.exmem.ff = none ∧
      ¬ (0 ≤ s.exmem.aluResult.toInt ∧ s.exmem.aluResult.toInt < s.memWords) := by
  intro ea hea
  simp only [List.mem_cons, List.not_mem_nil, or_false] at hea
  rcases hea with rfl | rfl | rfl | rfl <;> exact ⟨rfl, rfl, by decide⟩

/-- A marked slot in EXMEM. -/
def marked : State :=
  { inExmem noopWord 0 0 with
    exmem := { instr := noopWord, branchTarget := 0, aluResult := 0, readRegB := 0,
               ff := some 8 } }

theorem witness_MarkedSlotFaultsInMemory :
    (marked.inSlot .memory).slot = .memory ∧ (marked.inSlot .memory).exmem.ff = some 8 := by decide

/-- SlotsWriteOnlyWhatTheyOwn: a next state in every slot, of a BEQ and of another instruction. -/
theorem witness_SlotsWriteOnlyWhatTheyOwn (k : Slot) :
    exec (.beq 0 0 2) (State.reset.inSlot k) = .next (out (exec (.beq 0 0 2)
      (State.reset.inSlot k))) ∧
    exec (.sw 0 3 5) (State.reset.inSlot k) = .next (out (exec (.sw 0 3 5)
      (State.reset.inSlot k))) ∧ (Instr.sw 0 3 5).opc ≠ .beq := by
  cases k <;> exact ⟨rfl, rfl, by decide⟩

/-- RegisterFrame: a next state in Writeback of an ADD to r3, and the register r2. -/
theorem witness_RegisterFrame :
    let s := (inMemwb 0x000A0003 12).inSlot .writeback
    exec (.add 1 2 3) s = .next (out (exec (.add 1 2 3) s)) ∧
    ¬ (s.slot = .writeback ∧
      ((((Instr.add 1 2 3).opc = .add ∨ (Instr.add 1 2 3).opc = .nand) ∧
          (Instr.add 1 2 3).imm16.toNat = (2 : RegIx).toNat) ∨
        ((Instr.add 1 2 3).opc = .lw ∧ (Instr.add 1 2 3).regB = 2))) :=
  ⟨rfl, by decide⟩

/-- MemoryFrame: a store to address 5, and the addresses on both sides of it. -/
theorem witness_MemoryFrame :
    let s := (inExmem 0x00C30005 5 42).inSlot .memory
    s.mem.wf = true ∧ exec (.sw 0 3 5) s = .next (out (exec (.sw 0 3 5) s)) ∧
    ∀ k ∈ [4, 6], ¬ (s.slot = .memory ∧ (Instr.sw 0 3 5).opc = .sw ∧
      k = s.exmem.aluResult.toNat) :=
  ⟨by decide, rfl, by decide⟩

theorem witness_StepIsOneCycleInFull : State.reset.status = .running := rfl

/-- StepRunsTheDecodedInstruction: every hypothesis of both parts, with an ADD at the pc. -/
theorem witness_StepRunsTheDecodedInstruction :
    let s := State.reset.withFetchWord 32 0x000A0003
    let w := out (exec (decode s.memwb.instr) (s.inSlot .writeback))
    let m := out (exec (decode s.exmem.instr) (s.inSlot .memory))
    s.status = .running ∧ stall s = false ∧ inRange s.memWords s.pc = true ∧
    exec (decode s.memwb.instr) (s.inSlot .writeback) = .next w ∧ w.status = .running ∧
    exec (decode s.exmem.instr) (s.inSlot .memory) = .next m ∧ m.status = .running ∧
    exec (decode s.idex.instr) (s.inSlot .execute) =
      .next (out (exec (decode s.idex.instr) (s.inSlot .execute))) ∧
    exec (decode s.ifid.instr) (s.inSlot .decode) =
      .next (out (exec (decode s.ifid.instr) (s.inSlot .decode))) ∧
    exec (decode (s.mem.read s.pc.toNat)) (s.inSlot .fetch) =
      .next (out (exec (decode (s.mem.read s.pc.toNat)) (s.inSlot .fetch))) ∧
    s.slot = .fetch ∧ s.redirect = false ∧
    s.ifid.instr = noopWord ∧ s.ifid.ff = none ∧ s.idex.instr = noopWord ∧ s.idex.ff = none ∧
    s.exmem.instr = noopWord ∧ s.exmem.ff = none ∧ s.memwb.instr = noopWord ∧
    decode (s.mem.read s.pc.toNat) = .add 1 2 3 ∧
    exec (.add 1 2 3) s = .next (out (exec (.add 1 2 3) s)) :=
  ⟨rfl, by decide, by decide, rfl, rfl, rfl, rfl, rfl, rfl, rfl, rfl, rfl, rfl, rfl, rfl, rfl,
    rfl, rfl, rfl, by decide, rfl⟩

theorem witness_StepIsDefinedExactlyWhenRunning :
    { State.reset with status := .halted }.status = .halted ∧
    { State.reset with status := .faulted (.fetchRange 8) }.status = .faulted (.fetchRange 8) ∧
    State.reset.status = .running := ⟨rfl, rfl, rfl⟩

theorem witness_HaltInMemwbHaltsTheCore :
    (inMemwb 0x01800000 0).status = .running ∧ opc (inMemwb 0x01800000 0).memwb.instr = .halt := by
  decide

/-- FaultingCycleChangesOnlyTheStatus: Writeback's fault at the lowest illegal destination,
Memory's fault at the first address past memory, a marked slot, and no fault. -/
theorem witness_FaultingCycleChangesOnlyTheStatus :
    let s := inMemwb 0x00000008 0
    let t := inExmem 0x00810008 8 0
    (s.status = .running ∧ opc s.memwb.instr ≠ .halt ∧
      writebackFault s = some (.destRange 8 0x00000008)) ∧
    (t.status = .running ∧ opc t.memwb.instr ≠ .halt ∧ writebackFault t = none ∧
      memoryFault t = some (.memRange 8 0x00810008)) ∧
    (marked.status = .running ∧ opc marked.memwb.instr ≠ .halt ∧
      writebackFault marked = none ∧ memoryFault marked = some (.fetchRange 8)) ∧
    (opc (inExmem 0x00810007 7 0).memwb.instr ≠ .halt ∧
      writebackFault (inExmem 0x00810007 7 0) = none ∧
      memoryFault (inExmem 0x00810007 7 0) = none) := by decide

/-- CyclesCountsCommittedCycles and PcSequence: a committing, a halting and a faulting step. -/
theorem witness_CyclesCountsCommittedCycles_PcSequence :
    (step State.reset = .next (after State.reset) ∧ (after State.reset).status = .running) ∧
    (step (inMemwb 0x01800000 0) = .next (after (inMemwb 0x01800000 0)) ∧
      (after (inMemwb 0x01800000 0)).status ≠ .running) ∧
    (step marked = .next (after marked) ∧ (after marked).status ≠ .running) :=
  ⟨⟨rfl, rfl⟩, ⟨rfl, by decide⟩, ⟨rfl, by decide⟩⟩

/-- LoadUseStall and StallLastsOneCycle: V-ST-1's row. -/
theorem witness_LoadUseStall_StallLastsOneCycle :
    let s := inIdexIfid 0x00810005 0x00080002
    Commits s (after s) ∧ ¬ TakenBranch s ∧ stall s = true :=
  ⟨⟨rfl, rfl, rfl⟩, by decide, by decide⟩

/-- After reset but for the pc, with four words of memory. -/
def atPc (p : Word) : State := { State.reset with pc := p, memWords := 4 }

/-- FetchLatchesTheWordAtThePc: the last word of memory, the first past it, and the address -1 (a
stall: witness_LoadUseStall_StallLastsOneCycle; a taken branch:
witness_TakenBranchRedirectsAndFlushes). -/
theorem witness_FetchLatchesTheWordAtThePc :
    (Commits (atPc 3) (after (atPc 3)) ∧ ¬ TakenBranch (atPc 3) ∧ stall (atPc 3) = false ∧
      (0 ≤ (atPc 3).pc.toInt ∧ (atPc 3).pc.toInt < (atPc 3).memWords)) ∧
    (Commits (atPc 4) (after (atPc 4)) ∧ ¬ TakenBranch (atPc 4) ∧ stall (atPc 4) = false ∧
      ¬ (0 ≤ (atPc 4).pc.toInt ∧ (atPc 4).pc.toInt < (atPc 4).memWords)) ∧
    (Commits (atPc 0xFFFFFFFF) (after (atPc 0xFFFFFFFF)) ∧
      ¬ (0 ≤ (atPc 0xFFFFFFFF).pc.toInt ∧
        (atPc 0xFFFFFFFF).pc.toInt < (atPc 0xFFFFFFFF).memWords)) :=
  ⟨⟨⟨rfl, rfl, rfl⟩, by decide, by decide, by decide⟩,
    ⟨⟨rfl, rfl, rfl⟩, by decide, by decide, by decide⟩, ⟨rfl, rfl, rfl⟩, by decide⟩

/-- DecodeReadsTheCommittedRegisters: IFID reads r1 in the cycle that Writeback writes it. -/
theorem witness_DecodeReadsTheCommittedRegisters :
    let s : State :=
      { inMemwb 0x00810005 7 with ifid := { instr := 0x00090002, pcPlus1 := 2, ff := none } }
    Commits s (after s) ∧ ¬ TakenBranch s ∧ stall s = false ∧
    (after s).idex.readRegA = 0 ∧ readReg (after s) 1 = 7 :=
  ⟨⟨rfl, rfl, rfl⟩, by decide, by decide, by decide, by decide⟩

/-- ForwardingPrecedence: a state for each of its four cases, for register 1: NAND in EXMEM; a LW
in EXMEM and one in MEMWB; an ADD in WBEND only; no producer. -/
theorem witness_ForwardingPrecedence :
    let alu (w : Word) : Prop := (opc w = .add ∨ opc w = .nand) ∧ (imm16 w).toNat = (1 : RegIx).toNat
    let writes (w : Word) : Prop := alu w ∨ (opc w = .lw ∧ regB w = 1)
    let s1 := producers ⟨0x00810000, 100⟩ ⟨0x00120001, 10⟩ 0x00520001 0x00090003 0xFFFFFFFA 0 0
    let s2 := producers ⟨noopWord, 0⟩ ⟨0x00810000, 7⟩ 0x00810000 0x00090003 5 0 0
    let s3 := producers ⟨0x00000001, 8⟩ ⟨0x00C10005, 9⟩ noopWord 0x00090003 5 0 0
    let s4 := producers ⟨0x00000009, 1⟩ ⟨noopWord, 0⟩ 0x01090000 0x00090002 0 3 3
    alu s1.exmem.instr ∧
    (¬ alu s2.exmem.instr ∧ writes s2.memwb.instr) ∧
    (¬ alu s3.exmem.instr ∧ ¬ writes s3.memwb.instr ∧ writes s3.wbend.instr) ∧
    (¬ alu s4.exmem.instr ∧ ¬ writes s4.memwb.instr ∧ ¬ writes s4.wbend.instr) := by decide

/-- ExecuteLatchesTheAluResult: a NAND, a LW, a BEQ and an ADD in IDEX. -/
theorem witness_ExecuteLatchesTheAluResult :
    ∀ w ∈ [(0x004A0003 : Word), 0x00810005, 0x010A0000, 0x000A0003],
      Commits (inIdex w 1 2 3) (after (inIdex w 1 2 3)) ∧ ¬ TakenBranch (inIdex w 1 2 3) := by
  intro w hw
  simp only [List.mem_cons, List.not_mem_nil, or_false] at hw
  rcases hw with rfl | rfl | rfl | rfl <;> exact ⟨⟨rfl, rfl, rfl⟩, by decide⟩

theorem witness_TakenBranchRedirectsAndFlushes :
    Commits (inExmem 0x01000002 0 0) (after (inExmem 0x01000002 0 0)) ∧
    TakenBranch (inExmem 0x01000002 0 0) :=
  ⟨⟨rfl, rfl, rfl⟩, by decide⟩

/-- OnlyAStoreChangesMemory: a committing store, and its address and another. -/
theorem witness_OnlyAStoreChangesMemory :
    let s := inExmem 0x00C30005 5 42
    s.mem.wf = true ∧ step s = .next (after s) ∧ (after s).status = .running ∧
    opc s.exmem.instr = .sw ∧ (after s).mem.read 5 = 42 ∧ (after s).mem.read 7 = 33 :=
  ⟨by decide, rfl, rfl, by decide, by decide, by decide⟩

/-- OnlyWritebackChangesRegisters: a committing LW of r7 in MEMWB. -/
theorem witness_OnlyWritebackChangesRegisters :
    let s := inMemwb 0x00870005 9
    step s = .next (after s) ∧ (after s).status = .running ∧ opc s.memwb.instr = .lw ∧
    readReg (after s) 7 = 9 ∧ readReg (after s) 0 = 0 :=
  ⟨rfl, rfl, by decide, by decide, by decide⟩

/-- A SW to address 1 in Memory while the pc is 0; the pc is 1 in the next cycle. -/
def storeAhead : State := inExmem 0x00C30001 1 42

theorem witness_FetchSeesAStoreFromTheNextCycle :
    let t := after storeAhead
    Inv storeAhead ∧ Commits storeAhead t ∧ opc storeAhead.exmem.instr = .sw ∧
    stall storeAhead = false ∧
    (0 ≤ storeAhead.pc.toInt ∧ storeAhead.pc.toInt < storeAhead.memWords) ∧
    Commits t (after t) ∧ ¬ TakenBranch t ∧ stall t = false ∧ t.pc = storeAhead.exmem.aluResult :=
  ⟨by decide, ⟨rfl, rfl, rfl⟩, by decide, by decide, by decide, ⟨rfl, rfl, rfl⟩, by decide,
    by decide, by decide⟩

theorem witness_CapacityAndImageLengthAreFixed : step State.reset = .next (after State.reset) :=
  rfl

/-- AluResultReachesItsRegister, LoadReachesItsRegister, StoreReachesMemory: three cycles from a
word in IDEX, each of which commits. -/
theorem witness_ResultsReachTheirPlace :
    ∀ w ∈ [(0x000A0007 : Word), 0x004A0003, 0x00810005, 0x00C30005],
      let s := inIdex w 1 2 3
      Commits s (after s) ∧ Commits (after s) (after (after s)) ∧
      Commits (after (after s)) (after (after (after s))) ∧ ¬ TakenBranch s ∧ Inv s := by
  intro w hw
  simp only [List.mem_cons, List.not_mem_nil, or_false] at hw
  rcases hw with rfl | rfl | rfl | rfl <;>
    exact ⟨⟨rfl, rfl, rfl⟩, ⟨rfl, rfl, rfl⟩, ⟨rfl, rfl, rfl⟩, by decide, by decide⟩

theorem witness_ResultsReachTheirPlace_words :
    decode (inIdex 0x000A0007 1 2 3).idex.instr = .add 1 2 7 ∧
    decode (inIdex 0x004A0003 1 2 3).idex.instr = .nand 1 2 3 ∧
    decode (inIdex 0x00810005 1 2 3).idex.instr = .lw 0 1 5 ∧
    decode (inIdex 0x00C30005 1 2 3).idex.instr = .sw 0 3 5 := by decide

/-- BranchDecidesInMemory: equal and unequal operands. -/
theorem witness_BranchDecidesInMemory :
    let s := inIdex 0x010A0002 3 3 2
    let u := inIdex 0x010A0002 3 4 2
    (Commits s (after s) ∧ Commits (after s) (after (after s)) ∧ ¬ TakenBranch s ∧
      decode s.idex.instr = .beq 1 2 2 ∧ operandA s 1 = operandB s 2) ∧
    (Commits u (after u) ∧ Commits (after u) (after (after u)) ∧ ¬ TakenBranch u ∧
      decode u.idex.instr = .beq 1 2 2 ∧ operandA u 1 ≠ operandB u 2 ∧
      stall (after u) = false) :=
  ⟨⟨⟨rfl, rfl, rfl⟩, ⟨rfl, rfl, rfl⟩, by decide, by decide, by decide⟩,
    ⟨⟨rfl, rfl, rfl⟩, ⟨rfl, rfl, rfl⟩, by decide, by decide, by decide, by decide⟩⟩

theorem witness_HaltStopsAtTheFourthPosition :
    let s := inIdex 0x01800000 0 0 0
    Commits s (after s) ∧ Commits (after s) (after (after s)) ∧ ¬ TakenBranch s ∧
    decode s.idex.instr = .halt 0 0 0 :=
  ⟨⟨rfl, rfl, rfl⟩, ⟨rfl, rfl, rfl⟩, by decide, by decide⟩

/-- ResetState and ResetMeetsTheInvariants: an image that fills the memory, one word short of it,
and the empty one; LongImageIsRefused: one word too long. -/
theorem witness_ResetState_LongImageIsRefused :
    [(1 : Word), 0x01800000].length ≤ 2 ∧ [(1 : Word)].length ≤ 2 ∧ ([] : List Word).length ≤ 2 ∧
    (1 < [(1 : Word)].length + 1) ∧ 2 < [(1 : Word), 2, 3].length := by decide

theorem witness_StepKeepsInv :
    Inv storeAhead ∧ step storeAhead = .next (after storeAhead) := ⟨by decide, rfl⟩

/-- An ADD of r1 and r2 in IDEX with a producer of r1 in WBEND, one of r2 in MEMWB and a LW of r3
in EXMEM. -/
def crowded : State :=
  { producers ⟨0x00000001, 7⟩ ⟨0x00820000, 9⟩ 0x00830000 0x000A0004 5 0 0 with
    regs := #v[0, 7, 0, 0, 0, 0, 0, 0] }

theorem crowded_coherent : Coherent crowded := by
  refine ⟨fun r h => ?_, fun _ => ⟨fun h => absurd (by decide) h, fun _ => by decide,
    fun _ => by decide⟩⟩
  have hr : r = 1 := by
    have h1 : writeDest crowded.wbend.instr = some (1 : RegIx).toNat := by decide
    rw [h1] at h
    exact (BitVec.eq_of_toNat_eq (Option.some.inj h)).symm
  subst hr
  decide

theorem witness_StepKeepsCoherent :
    Coherent crowded ∧ step crowded = .next (after crowded) := ⟨crowded_coherent, rfl⟩

theorem witness_ForwardingIsExact :
    Coherent crowded ∧ opc crowded.idex.instr ≠ .noop ∧ Commits crowded (after crowded) ∧
    Commits (after crowded) (after (after crowded)) :=
  ⟨crowded_coherent, by decide, ⟨rfl, rfl, rfl⟩, ⟨rfl, rfl, rfl⟩⟩

/-- UnreadLatchFieldsNeverMatter: two states that differ in what a NOOP in EXMEM carries. -/
theorem witness_UnreadLatchFieldsNeverMatter :
    SameButUnread State.reset
      { State.reset with
        exmem := { instr := noopWord, branchTarget := 1, aluResult := 2, readRegB := 3,
                   ff := none } } ∧
    State.reset.status = .running := by
  refine ⟨?_, rfl⟩
  have no : opc State.reset.exmem.instr = .noop := by decide
  constructor <;> first
    | rfl
    | (intro _; rfl)
    | (intro h; rw [no] at h; simp [usesAlu] at h)

end Sys2Proof.Tests
end

section
/-! Sign and zero extension of a 16-bit field as numbers (spec/00_scope.md R9). -/

namespace Sys2Proof.Machine

/-- Sign extension keeps the field's signed value. -/
@[simp] theorem sext32_toInt (v : Half) : (sext32 v).toInt = v.toInt :=
  BitVec.toInt_signExtend_of_le (by decide)

/-- Zero extension keeps the field's unsigned value. -/
@[simp] theorem zext32_toNat (v : Half) : (zext32 v).toNat = v.toNat :=
  BitVec.toNat_setWidth_of_le (by decide)

/-- R9's formula for the signed value of a field: bit 15 is set from 32768 on. -/
theorem half_toInt_eq_ite (v : Half) :
    v.toInt = if v.toNat < 32768 then (v.toNat : Int) else (v.toNat : Int) - 65536 := by
  rw [BitVec.toInt_eq_toNat_cond]
  split <;> split <;> omega

/-- Settles O5: both extensions keep the field's value, which R9's formula gives, and a 16-bit
signed value lies in [-2^15, 2^15). -/
theorem signExtensionValue : Obligations.SignExtensionValue := by
  intro v
  rw [sext32_toInt, zext32_toNat]
  exact ⟨half_toInt_eq_ite v, BitVec.le_toInt v, Int.le_of_lt_add_one BitVec.toInt_lt, rfl⟩

end Sys2Proof.Machine
end

section
/-! No slot and no step writes the memory's capacity or the image length (R6, R20, R50; the capacity
is a field of the state: log entry 4). -/

namespace Sys2Proof.Machine

/-- The Memory slot keeps the capacity and the image length, in each of its four outcomes. -/
theorem memoryOf_keeps_memWords_imgLen (i : Instr) (s : State) :
    (memoryOf i s).memWords = s.memWords ∧ (memoryOf i s).imgLen = s.imgLen := by
  rcases memoryOf_cases i s with ⟨c, h⟩ | ⟨x, h⟩ | ⟨-, h⟩ | ⟨-, h⟩ <;> simp [h]

/-- The Writeback slot keeps the capacity and the image length, in each of its four outcomes. -/
theorem writebackOf_keeps_memWords_imgLen (i : Instr) (s : State) :
    (writebackOf i s).memWords = s.memWords ∧ (writebackOf i s).imgLen = s.imgLen := by
  rcases writebackOf_cases i s with ⟨c, h⟩ | h | ⟨-, h⟩ | ⟨d, hd, -, h⟩ <;> simp [h]

/-- A cycle ends in what Writeback or Memory stopped with, or in a commit, which takes both fields
from the committed state. -/
theorem runCycle_keeps_memWords_imgLen {s t : State} (h : runCycle s = .next t) :
    t.memWords = s.memWords ∧ t.imgLen = s.imgLen := by
  rcases runCycle_cases s with ⟨-, e⟩ | ⟨-, -, e⟩ | ⟨-, -, e⟩ <;>
    obtain rfl := Host.Outcome.next.inj (e.symm.trans h)
  · exact writebackOf_keeps_memWords_imgLen _ _
  · exact memoryOf_keeps_memWords_imgLen _ _
  · exact ⟨rfl, rfl⟩

/-- Settles O40: a step that answers a next state is a cycle, and a cycle keeps both fields. -/
theorem capacityAndImageLengthAreFixed : Obligations.CapacityAndImageLengthAreFixed :=
  fun _ _ h => runCycle_keeps_memWords_imgLen (step_next h).2

end Sys2Proof.Machine
end

section
/-! One step, written out: a RUNNING core's step is R122's cycle (`Safety.oneCycle`), slot by slot.
Everything about a step is then read off `step_next_cases` and the fields of `ordinaryCycle`. -/

namespace Sys2Proof.Machine

open Sys2Proof.Safety

/-! ### The Writeback slot -/

theorem retireDest_of_lt {i : Instr} {d : Half} {s : State} (h : d.toNat < 8) :
    retireDest i d s = writeReg (latchRetire i s) d.toNat h s.memwb.writeData := dif_pos h

theorem retireDest_of_ge {i : Instr} {d : Half} {s : State} (h : 8 ≤ d.toNat) :
    retireDest i d s = raiseFault (.destRange d (encode i)) s := dif_neg (Nat.not_lt.2 h)

/-- Retiring a word hands MEMWB on to WBEND (R116). -/
theorem latchRetire_decode (s : State) (k : Slot) :
    latchRetire (decode s.memwb.instr) (s.inSlot k) = { s.inSlot k with wbend := s.memwb } := by
  simp only [latchRetire, encode_decode, inSlot_memwb]

/-- Retiring a word into register `d` is also `setReg` on the register file. -/
theorem writeReg_latchRetire_decode (s : State) (k : Slot) {d : Nat} (h : d < 8) :
    writeReg (latchRetire (decode s.memwb.instr) (s.inSlot k)) d h s.memwb.writeData =
      { s.inSlot k with wbend := s.memwb, regs := setReg s.regs d s.memwb.writeData } := by
  rw [latchRetire_decode, setReg, dif_pos h]
  rfl

/-- The one fault Writeback raises is an ADD's or NAND's destination of 8 or more (R232). -/
theorem writebackFault_eq_some_iff {s : State} {c : FaultCause} :
    writebackFault s = some c ↔
      ((opc s.memwb.instr = .add ∨ opc s.memwb.instr = .nand) ∧
        8 ≤ (imm16 s.memwb.instr).toNat) ∧
      .destRange (imm16 s.memwb.instr) s.memwb.instr = c := by
  simp [writebackFault]

theorem writebackFault_eq_none_iff {s : State} :
    writebackFault s = none ↔
      (opc s.memwb.instr = .add ∨ opc s.memwb.instr = .nand → (imm16 s.memwb.instr).toNat < 8) := by
  simp [writebackFault]

theorem writebackOf_of_halt {s : State} (h : opc s.memwb.instr = .halt) :
    writebackOf (decode s.memwb.instr) (s.inSlot .writeback) =
      terminate (s.inSlot .writeback) := by
  simp only [writebackOf, opc_decode, h]

theorem writebackOf_of_fault {s : State} {c : FaultCause} (h : writebackFault s = some c) :
    writebackOf (decode s.memwb.instr) (s.inSlot .writeback) =
      raiseFault c (s.inSlot .writeback) := by
  obtain ⟨⟨ho, hd⟩, rfl⟩ := writebackFault_eq_some_iff.1 h
  rcases ho with ho | ho <;>
    simp only [writebackOf, opc_decode, ho, imm16_decode, retireDest_of_ge hd, encode_decode]

/-- A word that neither halts nor faults is retired, and its register is written (R116). -/
theorem writebackOf_of_no_fault {s : State} (hh : opc s.memwb.instr ≠ .halt)
    (hf : writebackFault s = none) :
    writebackOf (decode s.memwb.instr) (s.inSlot .writeback) =
      { s.inSlot .writeback with wbend := s.memwb, regs := (ordinaryCycle s).regs } := by
  have hd := writebackFault_eq_none_iff.1 hf
  have hwrite {d : Nat} (h : d < 8) := writeReg_latchRetire_decode s .writeback h
  rw [ordinaryCycle_regs]
  cases ho : opc s.memwb.instr <;>
    simp only [writebackOf, opc_decode, ho, imm16_decode, regB_decode]
  case halt => exact absurd ho hh
  case add => exact (retireDest_of_lt (hd (.inl ho))).trans (hwrite _)
  case nand => exact (retireDest_of_lt (hd (.inr ho))).trans (hwrite _)
  case lw => exact hwrite (regB s.memwb.instr).isLt
  all_goals exact latchRetire_decode s .writeback

/-! ### The Memory slot -/

theorem memoryFault_of_marked {s : State} {p : Word} (h : s.exmem.ff = some p) :
    memoryFault s = some (.fetchRange p) := by
  simp [memoryFault, h]

theorem memoryFault_of_unmarked {s : State} (h : s.exmem.ff = none) :
    memoryFault s =
      if (opc s.exmem.instr = .lw ∨ opc s.exmem.instr = .sw) ∧
          ¬ inRange s.memWords s.exmem.aluResult = true then
        some (.memRange s.exmem.aluResult s.exmem.instr)
      else none := by
  simp only [memoryFault, h, inRange_iff]

/-- The Memory action of an unmarked word, fault and all. -/
theorem memoryOf_of_unmarked {i : Instr} {s : State} (h : s.exmem.ff = none) :
    memoryOf i s =
      if (i.opc = .lw ∨ i.opc = .sw) ∧ ¬ inRange s.memWords s.exmem.aluResult = true then
        raiseFault (.memRange s.exmem.aluResult (encode i)) s
      else if i.opc = .beq ∧ s.exmem.aluResult = 0 then
        redirectTo s.exmem.branchTarget (latchMemory i s.exmem.aluResult s)
      else
        { s with
          memwb :=
            { instr := encode i
              writeData :=
                if i.opc = .lw then s.mem.read s.exmem.aluResult.toNat else s.exmem.aluResult }
          mem :=
            if i.opc = .sw then s.mem.write s.exmem.aluResult.toNat s.exmem.readRegB
            else s.mem } := by
  cases ho : i.opc <;>
    simp only [memoryOf, ho, memoryPass, memoryLoad, memoryStore, memoryBranch,
      unlessMarked_of_none h]
  case lw => by_cases hr : inRange s.memWords s.exmem.aluResult = true <;> simp [hr, latchMemory]
  case sw => by_cases hr : inRange s.memWords s.exmem.aluResult = true <;> simp [hr, latchMemory]
  case beq => by_cases hz : s.exmem.aluResult = 0 <;> simp [hz, aluIsZero, latchMemory]
  all_goals simp [latchMemory]

theorem memoryOf_of_marked {i : Instr} {s : State} {p : Word} (h : s.exmem.ff = some p) :
    memoryOf i s = raiseFault (.fetchRange p) s := by
  cases ho : i.opc <;>
    simp only [memoryOf, ho, memoryPass, memoryLoad, memoryStore, memoryBranch,
      unlessMarked_of_some h]

theorem memoryOf_of_fault {s : State} {c : FaultCause} (h : memoryFault s = some c) :
    memoryOf (decode s.exmem.instr) (s.inSlot .memory) = raiseFault c (s.inSlot .memory) := by
  cases hm : s.exmem.ff with
  | some p =>
    rw [memoryFault_of_marked hm] at h
    rw [memoryOf_of_marked (by exact hm), Option.some.inj h]
  | none =>
    rw [memoryFault_of_unmarked hm] at h
    obtain ⟨hc, hs⟩ := Option.ite_none_right_eq_some.1 h
    rw [memoryOf_of_unmarked (by exact hm)]
    simp only [opc_decode, encode_decode, inSlot_exmem, inSlot_memWords]
    rw [if_pos hc, Option.some.inj hs]

/-- A word that does not fault is handed to MEMWB with its data, a SW's word is stored, and a taken
BEQ redirects (R113, R115). -/
theorem memoryOf_of_no_fault {s : State} (h : memoryFault s = none) :
    memoryOf (decode s.exmem.instr) (s.inSlot .memory) =
      let m := { s.inSlot .memory with
        memwb := (ordinaryCycle s).memwb, mem := (ordinaryCycle s).mem }
      if TakenBranch s then redirectTo s.exmem.branchTarget m else m := by
  cases hm : s.exmem.ff with
  | some p => rw [memoryFault_of_marked hm] at h; cases h
  | none =>
    rw [memoryFault_of_unmarked hm] at h
    have hc : ¬ ((opc s.exmem.instr = .lw ∨ opc s.exmem.instr = .sw) ∧
        ¬ inRange s.memWords s.exmem.aluResult = true) := by
      intro hc; rw [if_pos hc] at h; cases h
    rw [memoryOf_of_unmarked (by exact hm), ordinaryCycle_memwb, ordinaryCycle_mem]
    simp only [opc_decode, encode_decode, inSlot_exmem, inSlot_memWords]
    rw [if_neg hc]
    by_cases ht : TakenBranch s
    · rw [if_pos ht, if_pos ht]
      simp [ht.1, latchMemory, encode_decode]
    · rw [if_neg ht, if_neg ht]
      rfl

/-! ### The Execute slot and the commit -/

/-- The Execute slot's ALU result is R111's table. -/
theorem aluOf_decode (s : State) (k : Slot) :
    aluOf (decode s.idex.instr) (s.inSlot k) =
      alu (opc s.idex.instr) (operandA s (regA s.idex.instr)) (operandB s (regB s.idex.instr))
        s.idex.offset := by
  unfold aluOf
  rw [opc_decode, regA_decode, regB_decode]
  cases opc s.idex.instr <;> rfl

/-- The Fetch slot's pc: held in a stall, else advanced (R106). -/
theorem fetchOf_pc (s : State) :
    (fetchOf s).pc = if stall s = true then s.pc else s.pc + 1 := by
  unfold fetchOf
  split_ifs <;> rfl

theorem fetchOf_ifid (s : State) :
    (fetchOf s).ifid =
      if stall s = true then s.ifid
      else if 0 ≤ s.pc.toInt ∧ s.pc.toInt < s.memWords then
        { instr := s.mem.read s.pc.toNat, pcPlus1 := s.pc + 1, ff := none }
      else { instr := noopWord, pcPlus1 := s.pc + 1, ff := some s.pc } := by
  simp only [fetchOf, inRange_iff]
  split_ifs <;> simp [encode_decode]

theorem decodeOf_idex (s : State) :
    (decodeOf s).idex =
      if stall s = true then
        { instr := noopWord, pcPlus1 := s.ifid.pcPlus1, readRegA := 0, readRegB := 0,
          offset := 0, ff := none }
      else
        { instr := s.ifid.instr, pcPlus1 := s.ifid.pcPlus1,
          readRegA := readReg s (regA s.ifid.instr), readRegB := readReg s (regB s.ifid.instr),
          offset := sext32 (imm16 s.ifid.instr), ff := s.ifid.ff } := by
  unfold decodeOf
  split_ifs <;> simp [encode_decode]

/-- What the execute slot makes of the state (R112). -/
def executeOf (s : State) : State :=
  latchExecute (decode s.idex.instr) (aluOf (decode s.idex.instr) (s.inSlot .execute))
    (s.inSlot .execute)

theorem executeOf_exmem (s : State) :
    (executeOf s).exmem =
      { instr := s.idex.instr, branchTarget := s.idex.pcPlus1 + s.idex.offset,
        aluResult :=
          alu (opc s.idex.instr) (operandA s (regA s.idex.instr)) (operandB s (regB s.idex.instr))
            s.idex.offset
        readRegB := operandB s (regB s.idex.instr), ff := s.idex.ff } := by
  simp [executeOf, aluOf_decode, encode_decode]

/-! The younger latches of an ordinary cycle are what the slots latched, flushed under a taken
branch (R117). -/

theorem ordinaryCycle_ifid_eq_fetchOf (s : State) :
    (ordinaryCycle s).ifid =
      if TakenBranch s then overrideIfid (fetchOf s).ifid (flush s).ifid
      else (fetchOf s).ifid := by
  rw [ordinaryCycle_ifid, fetchOf_ifid]; rfl

theorem ordinaryCycle_idex_eq_decodeOf (s : State) :
    (ordinaryCycle s).idex =
      if TakenBranch s then overrideIdex (decodeOf s).idex (flush s).idex
      else (decodeOf s).idex := by
  rw [ordinaryCycle_idex, decodeOf_idex]; rfl

theorem ordinaryCycle_exmem_eq_executeOf (s : State) :
    (ordinaryCycle s).exmem =
      if TakenBranch s then overrideExmem (executeOf s).exmem (flush s).exmem
      else (executeOf s).exmem := by
  rw [ordinaryCycle_exmem, executeOf_exmem]; rfl

/-- The parts the slots make of a state, committed, are R122's ordinary cycle: the older latches,
memory and registers as the slots leave them, the pc and the younger latches as a taken branch
decides. -/
theorem commit_eq_ordinaryCycle {s : State} (hh : opc s.memwb.instr ≠ .halt)
    (hw : writebackFault s = none) (hm : memoryFault s = none) :
    commit s (fetchOf s) (decodeOf s) (executeOf s)
      (memoryOf (decode s.exmem.instr) (s.inSlot .memory))
      (writebackOf (decode s.memwb.instr) (s.inSlot .writeback)) = (ordinaryCycle s).rest := by
  have hpc := ordinaryCycle_pc s
  have hifid := ordinaryCycle_ifid_eq_fetchOf s
  have hidex := ordinaryCycle_idex_eq_decodeOf s
  have hexmem := ordinaryCycle_exmem_eq_executeOf s
  rw [← fetchOf_pc] at hpc
  rw [memoryOf_of_no_fault hm, writebackOf_of_no_fault hh hw]
  by_cases ht : TakenBranch s
  · rw [if_pos ht] at hpc hifid hidex hexmem ⊢
    exact State.ext hpc.symm rfl rfl rfl hifid.symm hidex.symm hexmem.symm rfl rfl rfl rfl rfl
      rfl rfl
  · rw [if_neg ht] at hpc hifid hidex hexmem ⊢
    exact State.ext hpc.symm rfl rfl rfl hifid.symm hidex.symm hexmem.symm rfl rfl rfl rfl rfl
      rfl rfl

/-! ### The step -/

theorem rest_terminate_inSlot (s : State) (k : Slot) :
    (terminate (s.inSlot k)).rest = (terminate s).rest := rfl

theorem rest_raiseFault_inSlot (c : FaultCause) (s : State) (k : Slot) :
    (raiseFault c (s.inSlot k)).rest = (raiseFault c s).rest := rfl

theorem oneCycle_of_halt {s : State} (h : opc s.memwb.instr = .halt) :
    oneCycle s = terminate s := if_pos h

theorem oneCycle_of_fault {s : State} {c : FaultCause} (hh : opc s.memwb.instr ≠ .halt)
    (hc : cycleFault s = some c) : oneCycle s = raiseFault c s := by
  simp only [oneCycle, if_neg hh, hc, raiseFault]

theorem oneCycle_of_no_fault {s : State} (hh : opc s.memwb.instr ≠ .halt)
    (hc : cycleFault s = none) : oneCycle s = ordinaryCycle s := by
  simp only [oneCycle, if_neg hh, hc]

/-- R122: a RUNNING core's step is the cycle written out in full, by the three ends of a cycle. -/
theorem step_eq_oneCycle {s : State} (hr : s.status = .running) :
    step s = .next (oneCycle s).rest := by
  rw [step_of_running hr]
  have ends := runCycle_cases s
  by_cases hh : opc s.memwb.instr = .halt
  · rw [writebackOf_of_halt hh] at ends
    simpa [oneCycle_of_halt hh, rest_terminate_inSlot] using ends
  cases hw : writebackFault s with
  | some c =>
    have hc : cycleFault s = some c := by simp [cycleFault, hw]
    rw [writebackOf_of_fault hw] at ends
    simpa [oneCycle_of_fault hh hc, rest_raiseFault_inSlot] using ends
  | none =>
    have hws : (writebackOf (decode s.memwb.instr) (s.inSlot .writeback)).status = .running := by
      rw [writebackOf_of_no_fault hh hw]; exact hr
    cases hm : memoryFault s with
    | some c =>
      have hc : cycleFault s = some c := by simp [cycleFault, hw, hm]
      rw [memoryOf_of_fault hm] at ends
      simpa [hws, oneCycle_of_fault hh hc, rest_raiseFault_inSlot] using ends
    | none =>
      have hc : cycleFault s = none := (cycleFault_eq_none s).2 ⟨hw, hm⟩
      have hms : (memoryOf (decode s.exmem.instr) (s.inSlot .memory)).status = .running := by
        rw [memoryOf_of_no_fault hm]; split <;> exact hr
      rw [oneCycle_of_no_fault hh hc, ← commit_eq_ordinaryCycle hh hw hm]
      simpa [hws, hms, executeOf] using ends

/-- Said once: a step that answers a next state is a RUNNING core's, and it halts, faults or
commits; in the first two ends nothing but the status changes. -/
theorem step_next_cases {s t : State} (h : step s = .next t) :
    s.status = .running ∧
    ((opc s.memwb.instr = .halt ∧ t = (terminate s).rest) ∨
     (∃ c, opc s.memwb.instr ≠ .halt ∧ cycleFault s = some c ∧ t = (raiseFault c s).rest) ∨
     (opc s.memwb.instr ≠ .halt ∧ cycleFault s = none ∧ t = (ordinaryCycle s).rest)) := by
  have hr := (step_next h).1
  obtain rfl := Host.Outcome.next.inj ((step_eq_oneCycle hr).symm.trans h)
  refine ⟨hr, ?_⟩
  by_cases hh : opc s.memwb.instr = .halt
  · exact .inl ⟨hh, by rw [oneCycle_of_halt hh]⟩
  · cases hc : cycleFault s with
    | some c => exact .inr (.inl ⟨c, hh, rfl, by rw [oneCycle_of_fault hh hc]⟩)
    | none => exact .inr (.inr ⟨hh, rfl, by rw [oneCycle_of_no_fault hh hc]⟩)

end Sys2Proof.Machine
end

section
/-! What every step keeps and what it changes of the pc and the registers, by the three ends of
`step_next_cases`. -/

namespace Sys2Proof.Machine

open Sys2Proof.Safety

@[simp] theorem ordinaryCycle_imgLen (s : State) : (ordinaryCycle s).imgLen = s.imgLen := rfl
@[simp] theorem ordinaryCycle_memWords (s : State) : (ordinaryCycle s).memWords = s.memWords := rfl
@[simp] theorem ordinaryCycle_status (s : State) : (ordinaryCycle s).status = s.status := rfl

/-! ### The invariant -/

/-- Halting, faulting and resting touch nothing the invariant speaks of but the resting fields. -/
theorem inv_rest_terminate {s : State} (h : Inv s) : Inv (terminate s).rest :=
  ⟨⟨rfl, rfl⟩, h.2⟩

theorem inv_rest_raiseFault {s : State} (c : FaultCause) (h : Inv s) : Inv (raiseFault c s).rest :=
  ⟨⟨rfl, rfl⟩, h.2⟩

/-- The one write of a cycle is a SW's, whose address is in range where no fault is taken. -/
theorem ordinaryCycle_memoryFits {s : State} (hc : cycleFault s = none) (h : MemoryFits s) :
    MemoryFits (ordinaryCycle s) := by
  obtain ⟨hwf, hbelow, himg⟩ := h
  by_cases ho : opc s.exmem.instr = .sw
  · have hlt := toNat_lt_of_inRange ((inRange_iff _ _).2 (inRange_of_no_fault hc (.inr ho)).2)
    rw [MemoryFits, ordinaryCycle_mem, if_pos ho]
    exact ⟨Memory.wf_write hwf _ _, Memory.below_write hlt _ _ hbelow, himg⟩
  · rw [MemoryFits, ordinaryCycle_mem, if_neg ho]
    exact ⟨hwf, hbelow, himg⟩

/-- A marker is set only beside the stand-in, travels with its word, and is flushed with it. -/
theorem ordinaryCycle_markersOnSentinel {s : State} (h : MarkersOnSentinel s) :
    MarkersOnSentinel (ordinaryCycle s) := by
  obtain ⟨hifid, hidex, -⟩ := h
  rw [MarkersOnSentinel, ordinaryCycle_ifid_eq_fetchOf, ordinaryCycle_idex_eq_decodeOf,
    ordinaryCycle_exmem_eq_executeOf]
  by_cases ht : TakenBranch s
  · simp only [if_pos ht]
    exact ⟨fun _ => rfl, fun _ => rfl, fun _ => rfl⟩
  · simp only [if_neg ht, fetchOf_ifid, decodeOf_idex, executeOf_exmem]
    refine ⟨?_, ?_, hidex⟩
    · split_ifs
      · exact hifid
      · exact fun hn => absurd rfl hn
      · exact fun _ => rfl
    · split_ifs
      · exact fun _ => rfl
      · exact hifid

/-- Settles O49: a halting or faulting step changes the status only, and a committing one keeps the
memory's form and the markers; every end puts the model's own fields to rest. -/
theorem stepKeepsInv : Obligations.StepKeepsInv := by
  intro s t hinv h
  obtain ⟨-, ⟨-, rfl⟩ | ⟨c, -, -, rfl⟩ | ⟨-, hc, rfl⟩⟩ := step_next_cases h
  · exact inv_rest_terminate hinv
  · exact inv_rest_raiseFault c hinv
  · obtain ⟨-, hfits, hmarks⟩ := hinv
    exact ⟨⟨rfl, rfl⟩, ordinaryCycle_memoryFits hc hfits, ordinaryCycle_markersOnSentinel hmarks⟩

/-! ### The pc and the registers -/

/-- Settles O36: the pc of a committing cycle is R117's, and the other two ends keep it. -/
theorem pcSequence : Obligations.PcSequence := by
  intro s t h
  obtain ⟨hr, ⟨-, rfl⟩ | ⟨c, -, -, rfl⟩ | ⟨-, -, rfl⟩⟩ := step_next_cases h
  · simp
  · simp
  · exact ⟨fun _ => ordinaryCycle_pc s, fun hn => absurd hr hn⟩

/-- Settles O38: a committing cycle writes the register `writeDest` names, and the other two ends
write none. -/
theorem onlyWritebackChangesRegisters : Obligations.OnlyWritebackChangesRegisters := by
  intro s t h r
  obtain ⟨hr, ⟨-, rfl⟩ | ⟨c, -, -, rfl⟩ | ⟨-, -, rfl⟩⟩ := step_next_cases h
  · exact (if_neg (by simp)).symm
  · exact (if_neg (by simp)).symm
  · have hstatus : (ordinaryCycle s).rest.status = .running := hr
    simp only [hstatus, true_and, ← writeDest_iff]
    exact ordinaryCycle_readReg s r

end Sys2Proof.Machine
end

section
/-! What `exec` writes and leaves unchanged in each slot (R38), and the registers' frame (R23). -/

namespace Sys2Proof.Machine

open Sys2Proof.Safety

/-- Memory writes no register and not WBEND, the status only by a fault, and the pc and the younger
latches only for BEQ (R38, R115). -/
theorem memoryOf_owns {i : Instr} {s t : State} (ht : memoryOf i s = t) :
    t.regs = s.regs ∧ t.wbend = s.wbend ∧
    (t.status = s.status ∨ ∃ c, t = { s with status := .faulted c }) ∧
    (i.opc ≠ .beq →
      t.pc = s.pc ∧ t.ifid = s.ifid ∧ t.idex = s.idex ∧ t.exmem = s.exmem ∧
      t.redirect = s.redirect) := by
  rcases memoryOf_cases i s with ⟨c, h⟩ | ⟨x, h⟩ | ⟨-, h⟩ | ⟨hb, h⟩ <;>
    obtain rfl := ht.symm.trans h
  · exact ⟨rfl, rfl, .inr ⟨c, rfl⟩, fun _ => ⟨rfl, rfl, rfl, rfl, rfl⟩⟩
  · exact ⟨rfl, rfl, .inl rfl, fun _ => ⟨rfl, rfl, rfl, rfl, rfl⟩⟩
  · exact ⟨rfl, rfl, .inl rfl, fun _ => ⟨rfl, rfl, rfl, rfl, rfl⟩⟩
  · exact ⟨rfl, rfl, .inl rfl, fun hn => absurd hb hn⟩

/-- Writeback writes registers and WBEND, or the status alone, by a HALT or a fault (R38, R103). -/
theorem writebackOf_owns {i : Instr} {s t : State} (ht : writebackOf i s = t) :
    t = { s with regs := t.regs, wbend := t.wbend } ∨
    (i.opc = .halt ∧ t = { s with status := .halted }) ∨
    ∃ c, t = { s with status := .faulted c } := by
  rcases writebackOf_cases i s with ⟨c, h⟩ | h | ⟨hh, h⟩ | ⟨d, hd, -, h⟩ <;>
    obtain rfl := ht.symm.trans h
  · exact .inr (.inr ⟨c, rfl⟩)
  · exact .inl rfl
  · exact .inr (.inl ⟨hh, rfl⟩)
  · exact .inl rfl

/-! Neither Memory nor Writeback writes the cycle counter or the slot. -/

theorem memoryOf_keeps_cycles_slot (i : Instr) (s : State) :
    (memoryOf i s).cycles = s.cycles ∧ (memoryOf i s).slot = s.slot := by
  rcases memoryOf_cases i s with ⟨c, h⟩ | ⟨x, h⟩ | ⟨-, h⟩ | ⟨-, h⟩ <;> simp [h]

theorem writebackOf_keeps_cycles_slot (i : Instr) (s : State) :
    (writebackOf i s).cycles = s.cycles ∧ (writebackOf i s).slot = s.slot := by
  rcases writebackOf_cases i s with ⟨c, h⟩ | h | ⟨-, h⟩ | ⟨d, hd, -, h⟩ <;> simp [h]

/-- Settles O19: each slot's answer is a named update of the fields the slot owns. -/
theorem slotsWriteOnlyWhatTheyOwn : Obligations.SlotsWriteOnlyWhatTheyOwn := by
  intro i s t h
  rcases exec_next_cases h with ⟨hs, rfl⟩ | ⟨hs, rfl⟩ | ⟨hs, rfl⟩ | ⟨hs, rfl⟩ | ⟨hs, rfl⟩
  · refine ⟨rfl, rfl, rfl, rfl, fun _ => rfl, ?_, ?_, ?_, ?_⟩ <;> simp [hs]
  · refine ⟨rfl, rfl, rfl, rfl, ?_, fun _ => rfl, ?_, ?_, ?_⟩ <;> simp [hs]
  · refine ⟨rfl, rfl, rfl, rfl, ?_, ?_, fun _ => rfl, ?_, ?_⟩ <;> simp [hs]
  · obtain ⟨hmw, himg⟩ := memoryOf_keeps_memWords_imgLen i s
    obtain ⟨hcyc, hslot⟩ := memoryOf_keeps_cycles_slot i s
    refine ⟨himg, hcyc, hmw, hslot, ?_, ?_, ?_, fun _ => memoryOf_owns rfl, ?_⟩ <;>
      simp [hs]
  · obtain ⟨hmw, himg⟩ := writebackOf_keeps_memWords_imgLen i s
    obtain ⟨hcyc, hslot⟩ := writebackOf_keeps_cycles_slot i s
    refine ⟨himg, hcyc, hmw, hslot, ?_, ?_, ?_, ?_, fun _ => writebackOf_owns rfl⟩ <;>
      simp [hs]

/-- Writeback's register frame: only the destination of an ADD, NAND or LW is written. -/
theorem readReg_writebackOf {i : Instr} {s : State} {r : RegIx}
    (hr : ¬ (((i.opc = .add ∨ i.opc = .nand) ∧ i.imm16.toNat = r.toNat) ∨
      (i.opc = .lw ∧ i.regB = r))) :
    readReg (writebackOf i s) r = readReg s r := by
  rcases writebackOf_cases i s with ⟨c, h⟩ | h | ⟨-, h⟩ | ⟨d, hd, hdest, h⟩ <;> rw [h]
  case inl => rfl
  case inr.inl => rfl
  case inr.inr.inl => rfl
  case inr.inr.inr =>
    have hne : d ≠ r.toNat := by
      rintro rfl
      exact hr (hdest.imp id fun ⟨ho, hb⟩ => ⟨ho, BitVec.eq_of_toNat_eq hb⟩)
    rw [readReg_writeReg, if_neg hne]
    rfl

theorem readReg_memoryOf (i : Instr) (s : State) (r : RegIx) :
    readReg (memoryOf i s) r = readReg s r := by
  simp only [readReg, (memoryOf_owns (i := i) rfl).1]

/-- Settles O20: every slot but Writeback leaves the registers as they are. -/
theorem registerFrame : Obligations.RegisterFrame := by
  intro i s t h r hr
  rcases exec_next_cases h with ⟨-, rfl⟩ | ⟨-, rfl⟩ | ⟨-, rfl⟩ | ⟨-, rfl⟩ | ⟨hs, rfl⟩
  · rfl
  · rfl
  · rfl
  · exact readReg_memoryOf i s r
  · exact readReg_writebackOf fun hdest => hr ⟨hs, hdest⟩

/-- Settles O22: the write port's law, r0 included (R22). -/
theorem everyRegisterIsOrdinary : Obligations.EveryRegisterIsOrdinary := by
  intro s r q v
  rw [readReg_writeReg]
  simp only [BitVec.toNat_inj, eq_comm]

end Sys2Proof.Machine
end

section
/-! The state a reset leaves (R39 to R44, R260). -/

namespace Sys2Proof.Machine

/-- Every register holds 0 after a reset (R40). -/
theorem readReg_resetWith (n : Nat) (image : List Word) (tail : Nat → Word) (r : RegIx) :
    readReg (resetWith n image tail) r = 0 :=
  Vector.getElem_replicate r.isLt

/-- Settles O46: the fields are `State.reset`'s, and the memory is the image, then the tail. -/
theorem resetState : Obligations.ResetState := by
  intro n image tail hlen s
  refine ⟨if_pos hlen, rfl, readReg_resetWith n image tail, ?_, ?_, rfl, rfl, rfl, rfl, rfl, rfl,
    rfl, rfl, rfl⟩
  · exact fun k hk => (Memory.read_fill tail n 0 image k k.zero_le (by omega)).trans (dif_pos hk)
  · exact fun k hk hkn => (Memory.read_fill tail n 0 image k k.zero_le (by omega)).trans
      (dif_neg (Nat.not_lt.2 hk))

end Sys2Proof.Machine
end

section
/-! Non-interference of the latch fields no rule reads (R37, U8): agreement of two states, latch by
latch, is kept by every part of a cycle. -/

namespace Sys2Proof.Safety

open Sys2Proof.Machine

/-! ### Agreement of two latches on the fields a rule reads -/

/-- `SameButUnread`'s part about IFID. -/
structure SameIfid (a b : IfidLatch) : Prop where
  instr : a.instr = b.instr
  ff : a.ff = b.ff
  pcPlus1 : opc a.instr = .beq → a.pcPlus1 = b.pcPlus1

/-- `SameButUnread`'s part about IDEX. -/
structure SameIdex (a b : IdexLatch) : Prop where
  instr : a.instr = b.instr
  ff : a.ff = b.ff
  pcPlus1 : opc a.instr = .beq → a.pcPlus1 = b.pcPlus1
  readRegA : usesAlu (opc a.instr) → a.readRegA = b.readRegA
  readRegB : usesB (opc a.instr) → a.readRegB = b.readRegB
  offset : usesOffset (opc a.instr) → a.offset = b.offset

/-- `SameButUnread`'s part about EXMEM. -/
structure SameExmem (a b : ExmemLatch) : Prop where
  instr : a.instr = b.instr
  ff : a.ff = b.ff
  branchTarget : opc a.instr = .beq → a.branchTarget = b.branchTarget
  aluResult : usesAlu (opc a.instr) → a.aluResult = b.aluResult
  readRegB : opc a.instr = .sw → a.readRegB = b.readRegB

/-- `SameButUnread`'s part about MEMWB and WBEND. -/
structure SameData (a b : DataLatch) : Prop where
  instr : a.instr = b.instr
  writeData : usesData (opc a.instr) → a.writeData = b.writeData

/-! A flushed latch holds a NOOP, of which no other field is read. -/

theorem sameIfid_flushed {a b : IfidLatch} (s t : State) :
    SameIfid (overrideIfid a (flush s).ifid) (overrideIfid b (flush t).ifid) := by
  constructor <;> simp [overrideIfid]

theorem sameIdex_flushed {a b : IdexLatch} (s t : State) :
    SameIdex (overrideIdex a (flush s).idex) (overrideIdex b (flush t).idex) := by
  constructor <;> simp [overrideIdex, usesAlu, usesB, usesOffset]

theorem sameExmem_flushed {a b : ExmemLatch} (s t : State) :
    SameExmem (overrideExmem a (flush s).exmem) (overrideExmem b (flush t).exmem) := by
  constructor <;> simp [overrideExmem, usesAlu]

theorem usesData_of_writeDest {w : Word} {d : Nat} (h : writeDest w = some d) :
    usesData (opc w) := by
  unfold writeDest at h
  cases ho : opc w <;> simp_all [usesData]

theorem usesAlu_of_exmemDest {w : Word} {d : Nat} (h : exmemDest w = some d) :
    usesAlu (opc w) := by
  unfold exmemDest at h
  cases ho : opc w <;> simp_all [usesAlu]

namespace SameButUnread

variable {s t : State} (h : SameButUnread s t)
include h

theorem ifid : SameIfid s.ifid t.ifid := ⟨h.ifidInstr, h.ifidFf, h.ifidPcPlus1⟩

/-! ### What a cycle decides is the same -/

theorem takenBranch_iff : TakenBranch s ↔ TakenBranch t := by
  rw [TakenBranch, TakenBranch, ← h.exmemInstr]
  exact and_congr_right fun hb => by rw [h.exmemAlu (by simp [usesAlu, hb])]

theorem stall_eq : stall s = stall t := by
  simp only [stall, h.idexInstr, h.ifidInstr]

theorem readReg_eq (r : RegIx) : readReg s r = readReg t r := by
  simp only [readReg, h.regs]

theorem writebackFault_eq : writebackFault s = writebackFault t := by
  simp only [writebackFault, h.memwbInstr]

theorem memoryFault_eq : memoryFault s = memoryFault t := by
  unfold memoryFault
  rw [← h.exmemFf, ← h.exmemInstr, ← h.memWords]
  cases s.exmem.ff with
  | some p => rfl
  | none =>
    by_cases ho : opc s.exmem.instr = .lw ∨ opc s.exmem.instr = .sw
    · have hu : usesAlu (opc s.exmem.instr) :=
        ho.elim (.inr ∘ .inr ∘ .inl) (.inr ∘ .inr ∘ .inr ∘ .inl)
      rw [h.exmemAlu hu]
    · simp only [ho, false_and, if_false]

theorem cycleFault_eq : cycleFault s = cycleFault t := by
  simp only [cycleFault, h.writebackFault_eq, h.memoryFault_eq]

/-! ### What a cycle computes is the same where it is read -/

/-- The forwarding unit reads a latch's data only where its word has a destination. -/
theorem forward_eq (r : RegIx) {x y : Word} (hxy : x = y) : forward s r x = forward t r y := by
  simp only [forward, ← h.wbendInstr, ← h.memwbInstr, ← h.exmemInstr]
  split_ifs with hx hm hw
  · exact h.exmemAlu (usesAlu_of_exmemDest hx)
  · exact h.memwbData (usesData_of_writeDest hm)
  · exact h.wbendData (usesData_of_writeDest hw)
  · exact hxy

theorem operandA_eq (hu : usesAlu (opc s.idex.instr)) (r : RegIx) :
    operandA s r = operandA t r := h.forward_eq r (h.idexA hu)

theorem operandB_eq (hu : usesB (opc s.idex.instr)) (r : RegIx) :
    operandB s r = operandB t r := h.forward_eq r (h.idexB hu)

/-- The ALU of a class whose result is read takes operands and offset only where they agree. -/
theorem alu_eq (hu : usesAlu (opc s.idex.instr)) (ra rb : RegIx) :
    alu (opc s.idex.instr) (operandA s ra) (operandB s rb) s.idex.offset =
      alu (opc s.idex.instr) (operandA t ra) (operandB t rb) t.idex.offset := by
  rw [h.operandA_eq hu]
  rcases hu with ho | ho | ho | ho | ho
  · rw [h.operandB_eq (by simp [usesB, ho])]; simp only [ho, alu]
  · rw [h.operandB_eq (by simp [usesB, ho])]; simp only [ho, alu]
  · rw [h.idexOffset (by simp [usesOffset, ho])]; simp only [ho, alu]
  · rw [h.idexOffset (by simp [usesOffset, ho])]; simp only [ho, alu]
  · rw [h.operandB_eq (by simp [usesB, ho])]; simp only [ho, alu]

/-! ### What the slots latch agrees -/

theorem fetchOf_ifid_same : SameIfid (fetchOf s).ifid (fetchOf t).ifid := by
  rw [fetchOf_ifid, fetchOf_ifid, ← h.stall_eq, ← h.pc, ← h.mem, ← h.memWords]
  split_ifs
  · exact h.ifid
  · exact ⟨rfl, rfl, fun _ => rfl⟩
  · exact ⟨rfl, rfl, fun _ => rfl⟩

theorem decodeOf_idex_same : SameIdex (decodeOf s).idex (decodeOf t).idex := by
  rw [decodeOf_idex, decodeOf_idex, ← h.stall_eq, ← h.ifidInstr, ← h.ifidFf]
  split_ifs
  · exact ⟨rfl, rfl, by simp, fun _ => rfl, fun _ => rfl, fun _ => rfl⟩
  · exact ⟨rfl, rfl, h.ifidPcPlus1, fun _ => h.readReg_eq _, fun _ => h.readReg_eq _,
      fun _ => rfl⟩

theorem executeOf_exmem_same : SameExmem (executeOf s).exmem (executeOf t).exmem := by
  rw [executeOf_exmem, executeOf_exmem, ← h.idexInstr, ← h.idexFf]
  refine ⟨rfl, rfl, fun ho => ?_, fun hu => h.alu_eq hu _ _, fun ho => ?_⟩
  · exact congrArg₂ (· + ·) (h.idexPcPlus1 ho) (h.idexOffset (.inr (.inr ho)))
  · exact h.operandB_eq (.inr (.inr (.inl ho))) _

/-! ### The fields of an ordinary cycle -/

theorem ordinaryCycle_pc_eq : (ordinaryCycle s).pc = (ordinaryCycle t).pc := by
  rw [ordinaryCycle_pc, ordinaryCycle_pc]
  simp only [← h.takenBranch_iff, ← h.stall_eq, ← h.pc]
  split_ifs with ht
  · exact h.exmemTarget ht.1
  · rfl
  · rfl

theorem ordinaryCycle_regs_eq : (ordinaryCycle s).regs = (ordinaryCycle t).regs := by
  rw [ordinaryCycle_regs, ordinaryCycle_regs, ← h.memwbInstr, ← h.regs]
  split_ifs with hl ha
  · rw [h.memwbData (.inr (.inr hl))]
  · rw [h.memwbData (ha.imp id .inl)]
  · rfl

theorem ordinaryCycle_mem_eq : (ordinaryCycle s).mem = (ordinaryCycle t).mem := by
  rw [ordinaryCycle_mem, ordinaryCycle_mem, ← h.exmemInstr, ← h.mem]
  split_ifs with ho
  · rw [h.exmemAlu (by simp [usesAlu, ho]), h.exmemB ho]
  · rfl

theorem ordinaryCycle_ifid_same : SameIfid (ordinaryCycle s).ifid (ordinaryCycle t).ifid := by
  rw [ordinaryCycle_ifid_eq_fetchOf, ordinaryCycle_ifid_eq_fetchOf]
  simp only [← h.takenBranch_iff]
  split_ifs
  · exact sameIfid_flushed s t
  · exact h.fetchOf_ifid_same

theorem ordinaryCycle_idex_same : SameIdex (ordinaryCycle s).idex (ordinaryCycle t).idex := by
  rw [ordinaryCycle_idex_eq_decodeOf, ordinaryCycle_idex_eq_decodeOf]
  simp only [← h.takenBranch_iff]
  split_ifs
  · exact sameIdex_flushed s t
  · exact h.decodeOf_idex_same

theorem ordinaryCycle_exmem_same :
    SameExmem (ordinaryCycle s).exmem (ordinaryCycle t).exmem := by
  rw [ordinaryCycle_exmem_eq_executeOf, ordinaryCycle_exmem_eq_executeOf]
  simp only [← h.takenBranch_iff]
  split_ifs
  · exact sameExmem_flushed s t
  · exact h.executeOf_exmem_same

theorem ordinaryCycle_memwb_same : SameData (ordinaryCycle s).memwb (ordinaryCycle t).memwb := by
  rw [ordinaryCycle_memwb, ordinaryCycle_memwb, ← h.exmemInstr, ← h.mem]
  refine ⟨rfl, fun hu => ?_⟩
  have hu' : usesAlu (opc s.exmem.instr) := hu.imp id fun hu => hu.imp id .inl
  rw [h.exmemAlu hu']

/-- An ordinary cycle keeps the agreement. -/
theorem ordinaryCycle_same : SameButUnread (ordinaryCycle s) (ordinaryCycle t) :=
  have ifid := h.ordinaryCycle_ifid_same
  have idex := h.ordinaryCycle_idex_same
  have exmem := h.ordinaryCycle_exmem_same
  have memwb := h.ordinaryCycle_memwb_same
  { pc := h.ordinaryCycle_pc_eq
    regs := h.ordinaryCycle_regs_eq
    mem := h.ordinaryCycle_mem_eq
    imgLen := h.imgLen
    cycles := congrArg (· + 1) h.cycles
    status := h.status
    memWords := h.memWords
    ifidInstr := ifid.instr
    ifidFf := ifid.ff
    ifidPcPlus1 := ifid.pcPlus1
    idexInstr := idex.instr
    idexFf := idex.ff
    idexPcPlus1 := idex.pcPlus1
    idexA := idex.readRegA
    idexB := idex.readRegB
    idexOffset := idex.offset
    exmemInstr := exmem.instr
    exmemFf := exmem.ff
    exmemTarget := exmem.branchTarget
    exmemAlu := exmem.aluResult
    exmemB := exmem.readRegB
    memwbInstr := memwb.instr
    memwbData := memwb.writeData
    wbendInstr := h.memwbInstr
    wbendData := h.memwbData }

theorem rest_same : SameButUnread s.rest t.rest := { h with }

theorem terminate_same : SameButUnread (terminate s) (terminate t) := { h with status := rfl }

theorem raiseFault_same (c : FaultCause) : SameButUnread (raiseFault c s) (raiseFault c t) :=
  { h with status := rfl }

/-- R122's cycle keeps the agreement: both states halt, take the same fault, or commit. -/
theorem oneCycle_same : SameButUnread (oneCycle s) (oneCycle t) := by
  by_cases hh : opc s.memwb.instr = .halt
  · rw [oneCycle_of_halt hh, oneCycle_of_halt (h.memwbInstr ▸ hh)]
    exact h.terminate_same
  · have hh' : opc t.memwb.instr ≠ .halt := h.memwbInstr ▸ hh
    cases hc : cycleFault s with
    | some c =>
      rw [oneCycle_of_fault hh hc, oneCycle_of_fault hh' (h.cycleFault_eq ▸ hc)]
      exact h.raiseFault_same c
    | none =>
      rw [oneCycle_of_no_fault hh hc, oneCycle_of_no_fault hh' (h.cycleFault_eq ▸ hc)]
      exact h.ordinaryCycle_same

end SameButUnread

/-- Settles O52: both steps are R122's cycle, and the cycle keeps the agreement, since each part of
it reads a latch field only where the latch's class makes that field agree. -/
theorem unreadLatchFieldsNeverMatter : Obligations.UnreadLatchFieldsNeverMatter :=
  fun _ _ h hr => ⟨_, _, step_eq_oneCycle hr, step_eq_oneCycle (h.status ▸ hr),
    h.oneCycle_same.rest_same⟩

end Sys2Proof.Safety
end

section
/-! The one memory (R50): what the slots and a step leave of each word (R56, R58), and when a fetch
sees a store (R62). -/

namespace Sys2Proof.Machine

open Sys2Proof.Safety

/-! ### The slots -/

theorem writebackOf_mem (i : Instr) (s : State) : (writebackOf i s).mem = s.mem := by
  rcases writebackOf_cases i s with ⟨c, h⟩ | h | ⟨-, h⟩ | ⟨d, hd, -, h⟩ <;> simp [h]

/-- Memory's frame: the one word that may change is the one at the effective address of a SW. -/
theorem read_memoryOf {i : Instr} {s : State} {k : Nat} (hwf : s.mem.wf = true)
    (hk : ¬ (i.opc = .sw ∧ k = s.exmem.aluResult.toNat)) :
    (memoryOf i s).mem.read k = s.mem.read k := by
  rcases memoryOf_cases i s with ⟨c, h⟩ | ⟨x, h⟩ | ⟨ho, h⟩ | ⟨-, h⟩ <;> rw [h]
  case inl => rfl
  case inr.inl => rfl
  case inr.inr.inl => exact Memory.read_write_other hwf (fun he => hk ⟨ho, he⟩) _
  case inr.inr.inr => rfl

/-- Settles O21: every slot but Memory leaves the memory as it is. -/
theorem memoryFrame : Obligations.MemoryFrame := by
  intro i s t hwf h k hk
  rcases exec_next_cases h with ⟨-, rfl⟩ | ⟨-, rfl⟩ | ⟨-, rfl⟩ | ⟨hs, rfl⟩ | ⟨-, rfl⟩
  · rfl
  · rfl
  · rfl
  · exact read_memoryOf hwf fun hstore => hk ⟨hs, hstore⟩
  · rw [writebackOf_mem]

/-! ### The step -/

/-- A committing cycle is an ordinary one: it found no HALT and took no fault. -/
theorem commits_ordinaryCycle {s t : State} (h : Commits s t) :
    opc s.memwb.instr ≠ .halt ∧ cycleFault s = none ∧ t = (ordinaryCycle s).rest := by
  obtain ⟨-, hstep, ht⟩ := h
  obtain ⟨-, ⟨-, rfl⟩ | ⟨c, -, -, rfl⟩ | hordinary⟩ := step_next_cases hstep
  · cases ht
  · cases ht
  · exact hordinary

/-- The words after an ordinary cycle: a SW's word at its effective address, the old ones
elsewhere. -/
theorem read_ordinaryCycle {s : State} (hwf : s.mem.wf = true) (k : Nat) :
    (ordinaryCycle s).mem.read k =
      if opc s.exmem.instr = .sw ∧ k = s.exmem.aluResult.toNat then s.exmem.readRegB
      else s.mem.read k := by
  rw [ordinaryCycle_mem]
  by_cases ho : opc s.exmem.instr = .sw
  · simp [ho, Memory.read_write _ hwf]
  · simp [ho]

/-- Settles O37: a committing cycle writes a SW's word, and the other two ends write none. -/
theorem onlyAStoreChangesMemory : Obligations.OnlyAStoreChangesMemory := by
  intro s t hwf h k
  obtain ⟨hr, ⟨-, rfl⟩ | ⟨c, -, -, rfl⟩ | ⟨-, -, rfl⟩⟩ := step_next_cases h
  · exact (if_neg (by simp)).symm
  · exact (if_neg (by simp)).symm
  · have hstatus : (ordinaryCycle s).rest.status = .running := hr
    simp only [hstatus, true_and]
    exact read_ordinaryCycle hwf k

/-- An ordinary cycle with no taken branch, no stall and the pc in range fetches the word that
memory holds before the cycle (R106). -/
theorem ordinaryCycle_ifid_instr_of_fetch {s : State} (hb : ¬ TakenBranch s)
    (hs : stall s = false) (hpc : 0 ≤ s.pc.toInt ∧ s.pc.toInt < s.memWords) :
    (ordinaryCycle s).ifid.instr = s.mem.read s.pc.toNat := by
  simp only [ordinaryCycle_ifid, if_neg hb, hs, Bool.false_eq_true, if_false, if_pos hpc]

theorem not_takenBranch_of_sw {s : State} (ho : opc s.exmem.instr = .sw) : ¬ TakenBranch s :=
  fun ⟨hbeq, _⟩ => absurd (ho.symm.trans hbeq) (by decide)

/-- Settles O39: both fetches read the memory committed before their cycle, which for the second one
is the memory the store left; the store's address is in range, for its cycle took no fault. -/
theorem fetchSeesAStoreFromTheNextCycle : Obligations.FetchSeesAStoreFromTheNextCycle := by
  intro s t u hinv hst ho
  obtain ⟨-, ⟨hwf, -⟩, -⟩ := hinv
  obtain ⟨-, hc, rfl⟩ := commits_ordinaryCycle hst
  refine ⟨ordinaryCycle_ifid_instr_of_fetch (not_takenBranch_of_sw ho), fun htu hb hs hpc => ?_⟩
  obtain ⟨-, -, rfl⟩ := commits_ordinaryCycle htu
  have hrange := (inRange_of_no_fault hc (.inr ho)).2
  rw [← hpc] at hrange
  calc (ordinaryCycle (ordinaryCycle s).rest).ifid.instr
      = (ordinaryCycle s).mem.read (ordinaryCycle s).rest.pc.toNat :=
        ordinaryCycle_ifid_instr_of_fetch hb hs hrange
    _ = s.exmem.readRegB := by rw [read_ordinaryCycle hwf, if_pos ⟨ho, by rw [hpc]⟩]

end Sys2Proof.Machine
end

section
/-! The codec: decoding inverts encoding, the opcode map by match and mask, the fields of a word as
numbers and its encoding as shifted fields (R71 to R74, R77 to R79). -/

namespace Sys2Proof

/-! ### Decoding inverts encoding -/

/-- `EncodedFields` holds of every instruction. -/
theorem encodedFields (i : Instr) : Laws.EncodedFields.Statement i := by
  cases i with
  | add a b f => exact Laws.EncodedFields.add a b f
  | nand a b f => exact Laws.EncodedFields.nand a b f
  | lw a b f => exact Laws.EncodedFields.lw a b f
  | sw a b f => exact Laws.EncodedFields.sw a b f
  | beq a b f => exact Laws.EncodedFields.beq a b f
  | jalr a b f => exact Laws.EncodedFields.jalr a b f
  | halt a b f => exact Laws.EncodedFields.halt a b f
  | noop a b f => exact Laws.EncodedFields.noop a b f
  | data u op a b f => exact Laws.EncodedFields.data u op a b f

/-- Settles O1: the encoded word has the instruction's class, so decoding picks its constructor, and
it has the instruction's fields; a data word's upper and opcode bits come back as well. -/
theorem decodeInvertsEncode : Obligations.DecodeInvertsEncode := by
  intro i hwf
  obtain ⟨ha, hb, hf, hopc⟩ := encodedFields i
  cases i
  case data u op a b f =>
    have hu : upperBits (encode (.data u op a b f)) = u := upperBits_packFields u op a b f
    have hop : opcodeBits (encode (.data u op a b f)) = op := opcodeBits_packFields u op a b f
    rw [decode, hopc hwf, ha, hb, hf, hu, hop]
    rfl
  all_goals
    rw [decode, hopc hwf, ha, hb, hf]
    rfl

/-! ### The opcode map -/

theorem packFields_inj {u u' : BitVec 7} {op op' : BitVec 3} {a a' b b' : RegIx} {f f' : Half} :
    packFields u op a b f = packFields u' op' a' b' f' ↔
      u = u' ∧ op = op' ∧ a = a' ∧ b = b' ∧ f = f' := by
  constructor
  · intro h
    exact ⟨by simpa using congrArg upperBits h, by simpa using congrArg opcodeBits h,
      by simpa using congrArg regA h, by simpa using congrArg regB h,
      by simpa using congrArg imm16 h⟩
  · rintro ⟨rfl, rfl, rfl, rfl, rfl⟩
    rfl

theorem packFields_and (u u' : BitVec 7) (op op' : BitVec 3) (a a' b b' : RegIx) (f f' : Half) :
    packFields u op a b f &&& packFields u' op' a' b' f' =
      packFields (u &&& u') (op &&& op') (a &&& a') (b &&& b') (f &&& f') := by
  simp only [packFields, ← BitVec.and_append]

/-- A mask that is all ones or all zeros in each field keeps or clears the whole field: 0xFFC00000
keeps the upper and the opcode bits. -/
theorem and_opcodeMask (w : Word) :
    w &&& 0xFFC00000 = packFields (upperBits w) (opcodeBits w) 0 0 0 := by
  have hmask : (0xFFC00000 : Word) = packFields (.allOnes 7) (.allOnes 3) 0 0 0 := by decide
  conv_lhs => rw [← packFields_of_word w, hmask, packFields_and]
  simp only [BitVec.and_allOnes, BitVec.and_zero, BitVec.ofNat_eq_ofNat]

/-- The mask 0xFE000000 keeps the upper bits. -/
theorem and_upperMask (w : Word) : w &&& 0xFE000000 = packFields (upperBits w) 0 0 0 0 := by
  have hmask : (0xFE000000 : Word) = packFields (.allOnes 7) 0 0 0 0 := by decide
  conv_lhs => rw [← packFields_of_word w, hmask, packFields_and]
  simp only [BitVec.and_allOnes, BitVec.and_zero, BitVec.ofNat_eq_ofNat]

theorem opcOfBits_inj : ∀ {op op' : BitVec 3}, opcOfBits op = opcOfBits op' ↔ op = op' := by
  decide

theorem opcOfBits_ne_other : ∀ op : BitVec 3, opcOfBits op ≠ .other := by decide

theorem opc_eq_other_iff (w : Word) : opc w = .other ↔ w &&& 0xFE000000 ≠ 0 := by
  have hzero : (0 : Word) = packFields 0 0 0 0 0 := by decide
  rw [and_upperMask, hzero, Ne, packFields_inj]
  by_cases hu : upperBits w = 0 <;> simp [opc, hu, opcOfBits_ne_other]

/-- One row of R77's map: the match of opcode `op` is `op` in bits 24:22 and 0 elsewhere. -/
theorem opc_eq_opcOfBits_iff (w : Word) (op : BitVec 3) :
    opc w = opcOfBits op ↔ w &&& 0xFFC00000 = packFields 0 op 0 0 0 := by
  rw [and_opcodeMask, packFields_inj]
  by_cases hu : upperBits w = 0
  · simp [opc, hu, opcOfBits_inj]
  · rw [opc, if_neg hu]
    exact iff_of_false (opcOfBits_ne_other op).symm fun h => hu h.1

/-- Settles O2: the eight opcodes are `opcOfBits` of 0 to 7. -/
theorem opcodeMapByMatchAndMask : Obligations.OpcodeMapByMatchAndMask := fun w =>
  ⟨opc_eq_opcOfBits_iff w 0, opc_eq_opcOfBits_iff w 1, opc_eq_opcOfBits_iff w 2,
    opc_eq_opcOfBits_iff w 3, opc_eq_opcOfBits_iff w 4, opc_eq_opcOfBits_iff w 5,
    opc_eq_opcOfBits_iff w 6, opc_eq_opcOfBits_iff w 7, opc_eq_other_iff w⟩

/-! ### The fields as numbers -/

theorem regA_toNat (w : Word) : (regA w).toNat = w.toNat / 2 ^ 19 % 8 := by
  rw [regA, BitVec.extractLsb'_toNat, Nat.shiftRight_eq_div_pow]

theorem regB_toNat (w : Word) : (regB w).toNat = w.toNat / 2 ^ 16 % 8 := by
  rw [regB, BitVec.extractLsb'_toNat, Nat.shiftRight_eq_div_pow]

theorem imm16_toNat (w : Word) : (imm16 w).toNat = w.toNat % 2 ^ 16 := by
  rw [imm16, BitVec.extractLsb'_toNat, Nat.shiftRight_zero]

/-- Settles O3: each field is a quotient modulo its width, and the decoded term carries it. -/
theorem fieldsAreBitsOfTheWord : Obligations.FieldsAreBitsOfTheWord := fun w =>
  ⟨regA_toNat w, regB_toNat w, imm16_toNat w, regA_decode w, regB_decode w, imm16_decode w⟩

/-! ### The encoding as shifted fields -/

/-- R78's formula. The upper bits are 0, so widening them with the opcode
widens the opcode. -/
theorem packFields_zero_eq_or (op : BitVec 3) (a b : RegIx) (f : Half) :
    packFields 0 op a b f =
      op.setWidth 32 <<< 22 ||| a.setWidth 32 <<< 19 ||| b.setWidth 32 <<< 16 |||
        f.setWidth 32 := by
  have hop : ∀ op : BitVec 3, ((0 : BitVec 7) ++ op).setWidth 32 = op.setWidth 32 := by decide
  rw [← hop op]
  exact (BitVec.setWidth_eq _).symm.trans
    BitVec.setWidth_append_append_append_eq_shiftLeft_setWidth_or

/-- A signed 16-bit offset is placed as its residue modulo 2^16 (R74). -/
theorem half_ofInt_toNat (o : Int) : ((BitVec.ofInt 16 o).toNat : Int) = o % 65536 := by
  rw [BitVec.toNat_ofInt]
  omega

/-- Sign extension gives a placed signed 16-bit offset back (R74). -/
theorem sext32_ofInt_toInt {o : Int} (hlo : -32768 ≤ o) (hhi : o ≤ 32767) :
    (Machine.sext32 (BitVec.ofInt 16 o)).toInt = o := by
  rw [Machine.sext32_toInt]
  exact BitVec.toInt_ofInt_eq_self (by decide) hlo (Int.lt_add_one_of_le hhi)

/-- Settles O4: the eight encodings are packed fields under a literal opcode. -/
theorem encodeIsTheShiftedFields : Obligations.EncodeIsTheShiftedFields := fun a b f =>
  ⟨packFields_zero_eq_or 0 a b f, packFields_zero_eq_or 1 a b f, packFields_zero_eq_or 2 a b f,
    packFields_zero_eq_or 3 a b f, packFields_zero_eq_or 4 a b f, packFields_zero_eq_or 5 a b f,
    packFields_zero_eq_or 6 a b f, packFields_zero_eq_or 7 a b f,
    fun o hlo hhi => ⟨half_ofInt_toNat o, sext32_ofInt_toInt hlo hhi⟩, by decide⟩

end Sys2Proof
end

section
/-! One instruction in one slot, whatever the instruction: Fetch and Decode (R106, R108), a marked
slot in Memory (R114), and that no slot stops the model (R82; the slots are log entry 1). -/

namespace Sys2Proof.Machine

/-- Settles O7: in these two slots every instruction is latched as its word. -/
theorem fetchAndDecodeAreUniform : Obligations.FetchAndDecodeAreUniform :=
  fun _ _ => ⟨exec_of_fetch, exec_of_decode⟩

/-- Settles O17: Memory looks at the marker before it looks at the class. -/
theorem markedSlotFaultsInMemory : Obligations.MarkedSlotFaultsInMemory := by
  intro i s p hslot hff
  exact ⟨by rw [exec_of_memory hslot, memoryOf_of_marked hff, raiseFault], rfl⟩

/-- Settles O18: each slot's action, a fault taken there included, is a next state. -/
theorem everyInstructionAnswersNext : Obligations.EveryInstructionAnswersNext := by
  intro i s
  cases h : s.slot with
  | fetch => exact ⟨_, exec_of_fetch h⟩
  | decode => exact ⟨_, exec_of_decode h⟩
  | execute => exact ⟨_, exec_of_execute h⟩
  | memory => exact ⟨_, exec_of_memory h⟩
  | writeback => exact ⟨_, exec_of_writeback h⟩

end Sys2Proof.Machine
end

section
/-! The step as a whole: R122's cycle, when it is defined (R123), its HALT check (R103), the cycle
counter (R104), and that it is made of `exec` on the decoded words (R102). -/

namespace Sys2Proof.Machine

open Sys2Proof.Safety

/-- Settles O23: `step_eq_oneCycle`, which takes the three ends of a cycle apart. -/
theorem stepIsOneCycleInFull : Obligations.StepIsOneCycleInFull :=
  fun _ => step_eq_oneCycle

theorem step_of_halted {s : State} (h : s.status = .halted) : step s = .fault .halted := by
  simp only [step, h]

theorem step_of_faulted {s : State} {c : FaultCause} (h : s.status = .faulted c) :
    step s = .fault .faulted := by
  simp only [step, h]

/-- Settles O25: a stop in each terminal status, and R122's cycle in RUNNING. -/
theorem stepIsDefinedExactlyWhenRunning : Obligations.StepIsDefinedExactlyWhenRunning :=
  fun _ => ⟨step_of_halted, fun _ => step_of_faulted, fun h => ⟨_, step_eq_oneCycle h⟩⟩

/-- Settles O26: R122 checks for the HALT before any stage and any fault. -/
theorem haltInMemwbHaltsTheCore : Obligations.HaltInMemwbHaltsTheCore := by
  intro s hr hh
  rw [step_eq_oneCycle hr, oneCycle_of_halt hh]
  rfl

@[simp] theorem ordinaryCycle_cycles (s : State) : (ordinaryCycle s).cycles = s.cycles + 1 := rfl

/-- Settles O28: only the end that commits is RUNNING, and only it counts. -/
theorem cyclesCountsCommittedCycles : Obligations.CyclesCountsCommittedCycles := by
  intro s t h
  obtain ⟨hr, ⟨-, rfl⟩ | ⟨c, -, -, rfl⟩ | ⟨-, -, rfl⟩⟩ := step_next_cases h
  · simp
  · simp
  · simp [hr]

/-! ### The step and `exec` -/

/-- Without a stall and with the pc in range, Fetch runs the word at the pc (R106). -/
theorem fetchSlot_of_inRange {s : State} (hs : stall s = false)
    (hpc : inRange s.memWords s.pc = true) :
    fetchSlot s = exec (decode (s.mem.read s.pc.toNat)) (s.inSlot .fetch) := by
  simp only [fetchSlot, fetchWord, hs, hpc, if_true, Bool.false_eq_true, if_false]

/-- Without a stall, Decode runs the word in IFID (R108). -/
theorem decodeSlot_of_not_stall {s : State} (hs : stall s = false) :
    decodeSlot s = exec (decode s.ifid.instr) (s.inSlot .decode) :=
  if_neg (by simp [hs])

theorem ifRunning_of_next {r : Result} {t : State} (k : State → Result) (h : r = .next t)
    (ht : t.status = .running) : ifRunning r k = k t := by
  subst h
  exact if_pos ht

theorem andThen_of_next {r : Result} {t : State} (k : State → Result) (h : r = .next t) :
    andThen r k = k t := by
  subst h
  rfl

/-- A cycle whose slots all answer next states, the two that can leave RUNNING staying in it, is
the commit of those states. -/
theorem runCycle_eq_commit {s w m e d f : State}
    (hw : writebackSlot s = .next w) (hwr : w.status = .running)
    (hm : memorySlot s = .next m) (hmr : m.status = .running)
    (he : executeSlot s = .next e) (hd : decodeSlot s = .next d) (hf : fetchSlot s = .next f) :
    runCycle s = .next (commit s f d e m w) := by
  rw [runCycle, ifRunning_of_next _ hw hwr, ifRunning_of_next _ hm hmr, andThen_of_next _ he,
    andThen_of_next _ hd, andThen_of_next _ hf]

theorem stall_of_not_lw {s : State} (h : opc s.idex.instr ≠ .lw) : stall s = false :=
  Bool.eq_false_iff.2 fun hs => h ((stall_iff s).1 hs).1

/-- Nothing is in flight but the sentinel, unmarked (R79). -/
structure OnlySentinels (s : State) : Prop where
  ifidInstr : s.ifid.instr = noopWord
  ifidFf : s.ifid.ff = none
  idexInstr : s.idex.instr = noopWord
  idexFf : s.idex.ff = none
  exmemInstr : s.exmem.instr = noopWord
  exmemFf : s.exmem.ff = none
  memwbInstr : s.memwb.instr = noopWord

namespace OnlySentinels

variable {s : State} (h : OnlySentinels s)
include h

theorem cycleFault_eq_none : cycleFault s = none := by
  rw [Safety.cycleFault_eq_none, writebackFault_eq_none_iff, memoryFault_of_unmarked h.exmemFf,
    h.exmemInstr, h.memwbInstr]
  simp

/-- The cycle fetches the word at the pc and moves each sentinel one latch on. -/
theorem ordinaryCycle_eq (hpc : inRange s.memWords s.pc = true) :
    ordinaryCycle s =
      { latchFetch (decode (s.mem.read s.pc.toNat)) s with
        cycles := s.cycles + 1
        idex :=
          { instr := noopWord, pcPlus1 := s.ifid.pcPlus1, readRegA := readReg s 0,
            readRegB := readReg s 0, offset := 0, ff := none }
        exmem :=
          { instr := noopWord, branchTarget := s.idex.pcPlus1 + s.idex.offset,
            aluResult := operandA s 0 + operandB s 0, readRegB := operandB s 0, ff := none }
        memwb := { instr := noopWord, writeData := s.exmem.aluResult }
        wbend := { instr := noopWord, writeData := s.memwb.writeData } } := by
  have ht : ¬ TakenBranch s := by simp [TakenBranch, h.exmemInstr]
  have hs : ¬ stall s = true := by simp [stall_of_not_lw, h.idexInstr]
  have hfields : regA noopWord = 0 ∧ regB noopWord = 0 ∧ sext32 (imm16 noopWord) = 0 := by decide
  obtain ⟨hA, hB, hoff⟩ := hfields
  apply State.ext
  case pc => rw [ordinaryCycle_pc, if_neg ht, if_neg hs]; rfl
  case ifid =>
    rw [ordinaryCycle_ifid_eq_fetchOf, if_neg ht, fetchOf_ifid, if_neg hs,
      if_pos ((inRange_iff _ _).1 hpc), latchFetch, encode_decode]
  case idex =>
    rw [ordinaryCycle_idex_eq_decodeOf, if_neg ht, decodeOf_idex, if_neg hs, h.ifidInstr, h.ifidFf,
      hA, hB, hoff]
  case exmem =>
    rw [ordinaryCycle_exmem_eq_executeOf, if_neg ht, executeOf_exmem, h.idexInstr, h.idexFf, hA, hB,
      opc_noopWord]
    rfl
  case memwb => rw [ordinaryCycle_memwb, h.exmemInstr]; simp
  case wbend => rw [ordinaryCycle_wbend, ← h.memwbInstr]
  case mem => rw [ordinaryCycle_mem, h.exmemInstr]; simp
  case regs => rw [ordinaryCycle_regs, h.memwbInstr]; simp
  all_goals rfl

end OnlySentinels

/-- Settles O24: the commit is `runCycle`'s own; with only sentinels in flight the step is R122's
cycle, of which Fetch's part is the instruction at the pc. -/
theorem stepRunsTheDecodedInstruction : Obligations.StepRunsTheDecodedInstruction := by
  refine ⟨?_, ?_⟩
  · intro s w m e d f hr hs hpc hw hwr hm hmr he hd hf
    rw [step_of_running hr]
    exact runCycle_eq_commit hw hwr hm hmr he ((decodeSlot_of_not_stall hs).trans hd)
      ((fetchSlot_of_inRange hs hpc).trans hf)
  · intro i s t hr hslot hred hd hdf he hef hm hmf hw hpc hi ht
    have hsent : OnlySentinels s := ⟨hd, hdf, he, hef, hm, hmf, hw⟩
    have hh : opc s.memwb.instr ≠ .halt := by simp [hw]
    obtain rfl := Host.Outcome.next.inj ((exec_of_fetch hslot).symm.trans ht)
    rw [step_eq_oneCycle hr, oneCycle_of_no_fault hh hsent.cycleFault_eq_none,
      hsent.ordinaryCycle_eq hpc, hi, State.rest]
    simp only [latchFetch_slot, latchFetch_redirect, hslot, hred]

end Sys2Proof.Machine
end

section
/-! The stages of a committing cycle: the load-use stall (R105, R109, R269), Fetch (R106, R107),
Decode (R108), Execute (R111, R112) and the taken branch (R115, R117). -/

namespace Sys2Proof.Machine

open Sys2Proof.Safety

section
variable {s : State}

/-! Without a taken branch an ordinary cycle's younger latches are what the slots latched. -/

theorem ordinaryCycle_ifid_of_not_taken (h : ¬ TakenBranch s) :
    (ordinaryCycle s).ifid = (fetchOf s).ifid := by
  rw [ordinaryCycle_ifid_eq_fetchOf, if_neg h]

theorem ordinaryCycle_idex_of_not_taken (h : ¬ TakenBranch s) :
    (ordinaryCycle s).idex = (decodeOf s).idex := by
  rw [ordinaryCycle_idex_eq_decodeOf, if_neg h]

theorem ordinaryCycle_exmem_of_not_taken (h : ¬ TakenBranch s) :
    (ordinaryCycle s).exmem = (executeOf s).exmem := by
  rw [ordinaryCycle_exmem_eq_executeOf, if_neg h]

theorem ordinaryCycle_pc_of_not_taken (h : ¬ TakenBranch s) :
    (ordinaryCycle s).pc = (fetchOf s).pc := by
  rw [ordinaryCycle_pc, if_neg h, fetchOf_pc]

/-! Under a taken branch they are flushed. -/

theorem ordinaryCycle_of_taken (h : TakenBranch s) :
    (ordinaryCycle s).pc = s.exmem.branchTarget ∧
    (ordinaryCycle s).ifid = overrideIfid (fetchOf s).ifid (flush s).ifid ∧
    (ordinaryCycle s).idex = overrideIdex (decodeOf s).idex (flush s).idex ∧
    (ordinaryCycle s).exmem = overrideExmem (executeOf s).exmem (flush s).exmem := by
  rw [ordinaryCycle_pc, ordinaryCycle_ifid_eq_fetchOf, ordinaryCycle_idex_eq_decodeOf,
    ordinaryCycle_exmem_eq_executeOf]
  simp only [if_pos h, and_self]

theorem fetchOf_of_stall (h : stall s = true) : fetchOf s = s := if_pos h

theorem decodeOf_of_stall (h : stall s = true) : decodeOf s = latchBubble s := if_pos h

theorem decodeOf_of_not_stall (h : stall s = false) :
    decodeOf s = latchDecode (decode s.ifid.instr) (s.inSlot .decode) :=
  if_neg (by simp [h])

end

/-- The word an ordinary cycle puts into IDEX: the sentinel under a taken branch or a stall. -/
theorem ordinaryCycle_idex_instr (s : State) :
    (ordinaryCycle s).idex.instr =
      if TakenBranch s ∨ stall s = true then noopWord else s.ifid.instr := by
  by_cases hb : TakenBranch s
  · obtain ⟨-, -, hidex, -⟩ := ordinaryCycle_of_taken hb
    rw [hidex, if_pos (.inl hb)]
    rfl
  · rw [ordinaryCycle_idex_of_not_taken hb, decodeOf_idex]
    by_cases hs : stall s = true
    · rw [if_pos hs, if_pos (.inr hs)]
    · rw [if_neg hs, if_neg (not_or.2 ⟨hb, hs⟩)]

/-- Settles O29: in a stall Fetch leaves the state as it is and Decode latches the bubble. -/
theorem loadUseStall : Obligations.LoadUseStall := by
  refine fun s => ⟨stall_iff s, fun t h hb hs => ?_⟩
  obtain ⟨-, -, rfl⟩ := commits_ordinaryCycle h
  rw [rest_pc, rest_ifid, rest_idex, ordinaryCycle_pc_of_not_taken hb,
    ordinaryCycle_ifid_of_not_taken hb, ordinaryCycle_idex_of_not_taken hb, fetchOf_of_stall hs,
    decodeOf_of_stall hs]
  exact ⟨rfl, rfl, rfl⟩

/-- Settles O30: a stall cycle leaves the sentinel in IDEX, which is no LW. -/
theorem stallLastsOneCycle : Obligations.StallLastsOneCycle := by
  intro s t h hs
  obtain ⟨-, -, rfl⟩ := commits_ordinaryCycle h
  apply stall_of_not_lw
  rw [rest_idex, ordinaryCycle_idex_instr, if_pos (.inr hs), opc_noopWord]
  decide

/-- Settles O31: without a taken branch the pc and IFID are Fetch's, in each of its branches. -/
theorem fetchLatchesTheWordAtThePc : Obligations.FetchLatchesTheWordAtThePc := by
  intro s t h
  obtain ⟨-, -, rfl⟩ := commits_ordinaryCycle h
  rw [rest_pc, rest_ifid]
  refine ⟨fun hb hs => ?_, fun hb hs hpc => ?_, fun hb hs hpc => ?_, fun hb => ?_⟩
  · rw [ordinaryCycle_pc_of_not_taken hb, ordinaryCycle_ifid_of_not_taken hb, fetchOf_of_stall hs]
    exact ⟨rfl, rfl⟩
  · rw [ordinaryCycle_pc_of_not_taken hb, ordinaryCycle_ifid_of_not_taken hb, fetchOf_pc,
      fetchOf_ifid]
    simp [hs, hpc]
  · rw [ordinaryCycle_pc_of_not_taken hb, ordinaryCycle_ifid_of_not_taken hb, fetchOf_pc,
      fetchOf_ifid, if_neg hpc]
    simp [hs]
  · obtain ⟨hpc, hifid, -, -⟩ := ordinaryCycle_of_taken hb
    rw [hpc, hifid]
    exact ⟨rfl, rfl, rfl⟩

/-- Settles O32: IDEX is Decode's latch of IFID's word, of which a taken branch replaces the word
and the marker. -/
theorem decodeReadsTheCommittedRegisters : Obligations.DecodeReadsTheCommittedRegisters := by
  intro s t h hs
  obtain ⟨-, -, rfl⟩ := commits_ordinaryCycle h
  rw [rest_idex, ordinaryCycle_idex_eq_decodeOf, decodeOf_of_not_stall hs, latchDecode_idex]
  by_cases hb : TakenBranch s
  · rw [if_pos hb]
    simp [overrideIdex, hb]
  · rw [if_neg hb]
    simp [encode_decode]

/-- R111's table by its distinct operations. -/
theorem alu_eq_ite (o : Opc) (a b off : Word) :
    alu o a b off =
      if o = .nand then ~~~(a &&& b)
      else if o = .lw ∨ o = .sw then a + off
      else if o = .beq then a - b
      else a + b := by
  cases o <;> simp [alu]

/-- Settles O34: without a taken branch EXMEM is Execute's latch. -/
theorem executeLatchesTheAluResult : Obligations.ExecuteLatchesTheAluResult := by
  intro s t h hb
  obtain ⟨-, -, rfl⟩ := commits_ordinaryCycle h
  rw [rest_exmem, ordinaryCycle_exmem_of_not_taken hb, executeOf_exmem, alu_eq_ite]

/-- Settles O35: the flush overrides what the three younger slots latched, a stall's bubble and
frozen IFID included; Memory and Writeback hand their words on. -/
theorem takenBranchRedirectsAndFlushes : Obligations.TakenBranchRedirectsAndFlushes := by
  intro s t h hb
  obtain ⟨-, -, rfl⟩ := commits_ordinaryCycle h
  obtain ⟨hpc, hifid, hidex, hexmem⟩ := ordinaryCycle_of_taken hb
  rw [rest_pc, rest_ifid, rest_idex, rest_exmem, hpc, hifid, hidex, hexmem]
  exact ⟨rfl, rfl, rfl, rfl, rfl, rfl, rfl, rfl, rfl⟩

end Sys2Proof.Machine
end

section
/-! Forwarding: the unit's precedence (R110), the invariant that makes it exact, and that no
dependency needs software spacing (R120, R121, R265). -/

namespace Sys2Proof.Machine

open Sys2Proof.Safety

/-! ### The forwarding unit -/

/-- EXMEM forwards an ADD's or NAND's result only (R110). -/
theorem exmemDest_iff (w : Word) (r : RegIx) :
    exmemDest w = some r.toNat ↔
      (opc w = .add ∨ opc w = .nand) ∧ (imm16 w).toNat = r.toNat := by
  unfold exmemDest
  cases opc w <;> simp

/-- A later stage forwards what EXMEM does, and a LW's word besides. -/
theorem writeDest_iff_exmemDest (w : Word) (r : RegIx) :
    writeDest w = some r.toNat ↔ exmemDest w = some r.toNat ∨ (opc w = .lw ∧ regB w = r) := by
  rw [writeDest_iff, exmemDest_iff, or_comm]

/-- The unit by precedence: the youngest producer that names the register wins (R110). -/
theorem forward_eq (s : State) (r : RegIx) (raw : Word) :
    forward s r raw =
      if exmemDest s.exmem.instr = some r.toNat then s.exmem.aluResult
      else if writeDest s.memwb.instr = some r.toNat then s.memwb.writeData
      else if writeDest s.wbend.instr = some r.toNat then s.wbend.writeData
      else raw := rfl

/-- Settles O33: the branches of the forwarding unit, read top down. -/
theorem forwardingPrecedence : Obligations.ForwardingPrecedence := by
  intro s r raw
  simp only [← exmemDest_iff, ← writeDest_iff_exmemDest, forward_eq, operandA, operandB]
  refine ⟨trivial, trivial, fun hx => if_pos hx, fun hx hm => ?_, fun hx hm hw => ?_,
    fun hx hm hw => ?_⟩
  · rw [if_neg hx, if_pos hm]
  · rw [if_neg hx, if_neg hm, if_pos hw]
  · rw [if_neg hx, if_neg hm, if_neg hw]

/-! ### The invariant -/

/-- After an ordinary cycle the registers hold what the instruction in WBEND wrote. -/
theorem ordinaryCycle_wbend_written (s : State) (r : RegIx)
    (h : writeDest (ordinaryCycle s).wbend.instr = some r.toNat) :
    readReg (ordinaryCycle s) r = (ordinaryCycle s).wbend.writeData := by
  rw [ordinaryCycle_wbend] at h ⊢
  rw [ordinaryCycle_readReg, if_pos h]

/-- An ordinary cycle keeps every register that the instruction it hands to WBEND does not write. -/
theorem ordinaryCycle_readReg_of_not_written {s : State} {r : RegIx}
    (h : writeDest (ordinaryCycle s).wbend.instr ≠ some r.toNat) :
    readReg (ordinaryCycle s) r = readReg s r := by
  rw [ordinaryCycle_wbend] at h
  rw [ordinaryCycle_readReg, if_neg h]

/-- An ordinary cycle makes a coherent state of any state: Decode read the registers of before this
cycle's one register write, and the stall held back a word that a LW in IDEX feeds. -/
theorem ordinaryCycle_coherent (s : State) : Coherent (ordinaryCycle s) := by
  refine ⟨ordinaryCycle_wbend_written s, fun hno => ?_⟩
  have hgo : ¬ (TakenBranch s ∨ stall s = true) := by
    intro hstop
    rw [ordinaryCycle_idex_instr, if_pos hstop] at hno
    exact hno opc_noopWord
  obtain ⟨hb, hs⟩ := not_or.1 hgo
  rw [ordinaryCycle_idex_of_not_taken hb, decodeOf_of_not_stall (Bool.eq_false_iff.2 hs),
    ordinaryCycle_exmem_of_not_taken hb, executeOf_exmem]
  simp only [latchDecode_idex, encode_decode, regA_decode, regB_decode, readReg_inSlot]
  refine ⟨fun h => (ordinaryCycle_readReg_of_not_written h).symm,
    fun h => (ordinaryCycle_readReg_of_not_written h).symm, fun hlw => ?_⟩
  exact not_or.1 fun hsource => hs ((stall_iff s).2 ⟨hlw, hsource⟩)

/-- Settles O50: a committing step makes the state coherent, and the other two ends change nothing
the invariant speaks of. -/
theorem stepKeepsCoherent : Obligations.StepKeepsCoherent := by
  intro s t hcoh h
  obtain ⟨-, ⟨-, rfl⟩ | ⟨c, -, -, rfl⟩ | ⟨-, -, rfl⟩⟩ := step_next_cases h
  · exact hcoh
  · exact hcoh
  · exact ordinaryCycle_coherent s

/-! ### Exactness -/

/-- What a register holds after two ordinary cycles: the data of the word in EXMEM, which is its ALU
result where EXMEM forwards, else that of the word in MEMWB, else its old value. -/
theorem readReg_two_cycles {s : State} {r : RegIx}
    (hload : opc s.exmem.instr = .lw → regB s.exmem.instr ≠ r) :
    readReg (ordinaryCycle (ordinaryCycle s).rest) r =
      if exmemDest s.exmem.instr = some r.toNat then s.exmem.aluResult
      else if writeDest s.memwb.instr = some r.toNat then s.memwb.writeData
      else readReg s r := by
  have hdest : writeDest s.exmem.instr = some r.toNat ↔ exmemDest s.exmem.instr = some r.toNat := by
    rw [writeDest_iff_exmemDest]
    exact or_iff_left fun ⟨hlw, hr⟩ => hload hlw hr
  have hfirst : readReg (ordinaryCycle s).rest r =
      if writeDest s.memwb.instr = some r.toNat then s.memwb.writeData else readReg s r :=
    ordinaryCycle_readReg s r
  rw [ordinaryCycle_readReg, hfirst, rest_memwb, ordinaryCycle_memwb]
  simp only [hdest]
  by_cases hx : exmemDest s.exmem.instr = some r.toNat
  · have hnot : opc s.exmem.instr ≠ .lw := by
      intro hlw
      rcases ((exmemDest_iff _ r).1 hx).1 with ho | ho <;> rw [hlw] at ho <;> cases ho
    rw [if_pos hx, if_pos hx, if_neg hnot]
  · rw [if_neg hx, if_neg hx]

/-- A source whose latched value is the register's, but for what WBEND's instruction has written
since, and that no LW in EXMEM loads, is forwarded the value two more cycles leave in it. -/
theorem forward_eq_readReg_two_cycles {s : State} {r : RegIx} {raw : Word}
    (hwbend : writeDest s.wbend.instr = some r.toNat → readReg s r = s.wbend.writeData)
    (hraw : writeDest s.wbend.instr ≠ some r.toNat → raw = readReg s r)
    (hload : opc s.exmem.instr = .lw → regB s.exmem.instr ≠ r) :
    forward s r raw = readReg (ordinaryCycle (ordinaryCycle s).rest) r := by
  have hlatched :
      (if writeDest s.wbend.instr = some r.toNat then s.wbend.writeData else raw) =
        readReg s r := by
    split
    case isTrue hw => exact (hwbend hw).symm
    case isFalse hw => exact hraw hw
  rw [forward_eq, hlatched, readReg_two_cycles hload]

/-- Settles O51: the invariant gives, for both sources, what exact forwarding needs. -/
theorem forwardingIsExact : Obligations.ForwardingIsExact := by
  intro s s1 s2 ⟨hwbend, hidex⟩ hno h1 h2
  obtain ⟨-, -, rfl⟩ := commits_ordinaryCycle h1
  obtain ⟨-, -, rfl⟩ := commits_ordinaryCycle h2
  obtain ⟨hA, hB, hload⟩ := hidex hno
  exact ⟨forward_eq_readReg_two_cycles (hwbend _) hA fun hlw => (hload hlw).1,
    forward_eq_readReg_two_cycles (hwbend _) hB fun hlw => (hload hlw).2⟩

end Sys2Proof.Machine
end

section
/-! ADD and NAND (R160, R161): what each slot makes of them, which differs in the ALU result alone,
and the way of that result from Execute into the register file. -/

namespace Sys2Proof.Machine

open Sys2Proof.Safety

/-! ### Slot by slot -/

@[simp] theorem aluOf_add (a b : RegIx) (d : Half) (s : State) :
    aluOf (.add a b d) s = operandA s a + operandB s b := rfl

@[simp] theorem aluOf_nand (a b : RegIx) (d : Half) (s : State) :
    aluOf (.nand a b d) s = ~~~(operandA s a &&& operandB s b) := rfl

@[simp] theorem aluOf_inSlot (i : Instr) (s : State) (k : Slot) :
    aluOf i (s.inSlot k) = aluOf i s := rfl

section
variable {i : Instr} {s : State} (ho : i.opc = .add ∨ i.opc = .nand)
include ho

/-- Memory passes the ALU result of an unmarked ADD or NAND on as write-back data (R113). -/
theorem exec_memory_of_alu (hs : s.slot = .memory) (hff : s.exmem.ff = none) :
    exec i s = .next { s with memwb := { instr := encode i, writeData := s.exmem.aluResult } } := by
  rw [exec_of_memory hs]
  rcases ho with ho | ho <;> simp only [memoryOf, ho, memoryPass, unlessMarked_of_none hff] <;> rfl

/-- Writeback puts the write-back data of an ADD or NAND into its destination (R116). -/
theorem exec_writeback_of_alu (hs : s.slot = .writeback) (h : i.imm16.toNat < 8) :
    exec i s = .next
      { s with
        wbend := { instr := encode i, writeData := s.memwb.writeData }
        regs := s.regs.set i.imm16.toNat s.memwb.writeData h } := by
  rw [exec_of_writeback hs]
  rcases ho with ho | ho <;> simp only [writebackOf, ho, retireDest_of_lt h] <;> rfl

end

/-- Settles O8: Execute latches the sum; Memory and Writeback are those of both ALU classes. -/
theorem addResult : Obligations.AddResult := by
  intro a b d s
  refine ⟨fun hs => ?_, exec_memory_of_alu (.inl rfl),
    exec_writeback_of_alu (i := .add a b d) (.inl rfl)⟩
  rw [exec_of_execute hs, aluOf_add]
  rfl

/-- Settles O9: Execute latches the NAND; Memory and Writeback are those of both ALU classes. -/
theorem nandResult : Obligations.NandResult := by
  intro a b d s
  refine ⟨fun hs => ?_, exec_memory_of_alu (.inr rfl),
    exec_writeback_of_alu (i := .nand a b d) (.inr rfl)⟩
  rw [exec_of_execute hs, aluOf_nand]
  rfl

/-! ### From Execute to the register -/

theorem ne_lw_of_alu {o : Opc} (h : o = .add ∨ o = .nand) : o ≠ .lw := by
  rcases h with rfl | rfl <;> decide

/-- Execute's latch after an ordinary cycle with no taken branch holds the word of IDEX and its ALU
result (R112). -/
theorem ordinaryCycle_exmem_instr_aluResult {s : State} (hb : ¬ TakenBranch s) :
    (ordinaryCycle s).exmem.instr = s.idex.instr ∧
    (ordinaryCycle s).exmem.aluResult = aluOf (decode s.idex.instr) s := by
  rw [ordinaryCycle_exmem_of_not_taken hb, executeOf, latchExecute_exmem]
  exact ⟨encode_decode _, aluOf_inSlot _ _ _⟩

/-- The write-back data of every word but a LW is its ALU result (R113). -/
theorem ordinaryCycle_memwb_of_not_lw {s : State} (ho : opc s.exmem.instr ≠ .lw) :
    (ordinaryCycle s).memwb = { instr := s.exmem.instr, writeData := s.exmem.aluResult } := by
  rw [ordinaryCycle_memwb, if_neg ho]

/-- A cycle without a fault that finds an ADD or NAND in MEMWB puts its write-back data into its
destination, which is one of the eight registers (R116, R232). -/
theorem ordinaryCycle_regs_of_alu {s : State} (hc : cycleFault s = none)
    (ho : opc s.memwb.instr = .add ∨ opc s.memwb.instr = .nand) :
    ∃ _ : (imm16 s.memwb.instr).toNat < 8,
      (ordinaryCycle s).regs[(imm16 s.memwb.instr).toNat] = s.memwb.writeData := by
  have hd := writebackFault_eq_none_iff.1 ((cycleFault_eq_none s).1 hc).1 ho
  refine ⟨hd, ?_⟩
  simp only [ordinaryCycle_regs, if_neg (ne_lw_of_alu ho), if_pos ho, setReg, dif_pos hd,
    Vector.getElem_set_self]

/-- The ALU result of an ADD or NAND in IDEX, no taken branch being in Memory, is in its destination
register after three committing cycles: Execute, Memory and Writeback. -/
theorem aluResult_reaches_register {s s1 s2 s3 : State} (h1 : Commits s s1) (h2 : Commits s1 s2)
    (h3 : Commits s2 s3) (hb : ¬ TakenBranch s) {i : Instr} (hi : decode s.idex.instr = i)
    (ho : i.opc = .add ∨ i.opc = .nand) :
    ∃ _ : i.imm16.toNat < 8, s3.regs[i.imm16.toNat] = aluOf i s := by
  subst hi
  obtain ⟨-, -, rfl⟩ := commits_ordinaryCycle h1
  obtain ⟨-, -, rfl⟩ := commits_ordinaryCycle h2
  obtain ⟨-, hc, rfl⟩ := commits_ordinaryCycle h3
  rw [opc_decode] at ho
  obtain ⟨hinstr, halu⟩ := ordinaryCycle_exmem_instr_aluResult hb
  have hlw : opc (ordinaryCycle s).rest.exmem.instr ≠ .lw := by
    rw [rest_exmem, hinstr]
    exact ne_lw_of_alu ho
  have hmemwb : (ordinaryCycle (ordinaryCycle s).rest).rest.memwb =
      { instr := s.idex.instr, writeData := aluOf (decode s.idex.instr) s } := by
    rw [rest_memwb, ordinaryCycle_memwb_of_not_lw hlw, rest_exmem, hinstr, halu]
  have hregs := ordinaryCycle_regs_of_alu hc (by rwa [hmemwb])
  simpa only [hmemwb, imm16_decode, rest_regs] using hregs

/-- Settles O41: the ALU result that reaches the register is `aluOf_add` or `aluOf_nand`. -/
theorem aluResultReachesItsRegister : Obligations.AluResultReachesItsRegister := by
  intro s s1 s2 s3 a b d h1 h2 h3 hb
  rw [← aluOf_add a b d, ← aluOf_nand a b d]
  exact ⟨fun hi => aluResult_reaches_register h1 h2 h3 hb hi (.inl rfl),
    fun hi => aluResult_reaches_register h1 h2 h3 hb hi (.inr rfl)⟩

end Sys2Proof.Machine
end

section
/-! LW and SW (R180 to R182): what each slot makes of them, and their way through the pipeline: the
effective address from Execute to Memory, a load's word to its register, a store's to memory. -/

namespace Sys2Proof.Machine

open Sys2Proof.Safety

/-! ### Slot by slot -/

@[simp] theorem aluOf_lw (a b : RegIx) (f : Half) (s : State) :
    aluOf (.lw a b f) s = operandA s a + s.idex.offset := rfl

@[simp] theorem aluOf_sw (a b : RegIx) (f : Half) (s : State) :
    aluOf (.sw a b f) s = operandA s a + s.idex.offset := rfl

/-- An unmarked LW at an address in range hands the word there to MEMWB (R180). -/
theorem memoryLoad_of_inRange {i : Instr} {s : State} (hff : s.exmem.ff = none)
    (hr : inRange s.memWords s.exmem.aluResult = true) :
    memoryLoad i s = latchMemory i (s.mem.read s.exmem.aluResult.toNat) s := by
  rw [memoryLoad, unlessMarked_of_none hff, if_pos hr]

/-- An unmarked SW at an address in range writes its carried operand there (R181). -/
theorem memoryStore_of_inRange {i : Instr} {s : State} (hff : s.exmem.ff = none)
    (hr : inRange s.memWords s.exmem.aluResult = true) :
    memoryStore i s =
      { latchMemory i s.exmem.aluResult s with
        mem := s.mem.write s.exmem.aluResult.toNat s.exmem.readRegB } := by
  rw [memoryStore, unlessMarked_of_none hff, if_pos hr]

/-- Settles O10: Execute latches the effective address, Memory loads, Writeback writes `r[b]`. -/
theorem lwResult : Obligations.LwResult := by
  intro a b f s
  refine ⟨fun hs => ?_, fun hs hff h0 h1 => ?_, fun hs => ?_⟩
  · rw [exec_of_execute hs, aluOf_lw]
    rfl
  · have hload := memoryLoad_of_inRange (i := .lw a b f) hff ((inRange_iff _ _).2 ⟨h0, h1⟩)
    exact (exec_of_memory hs).trans (congrArg Host.Outcome.next hload)
  · exact exec_of_writeback hs

/-- Settles O11: Execute latches the effective address and operand b, Memory stores, and Writeback
only retires the word. -/
theorem swResult : Obligations.SwResult := by
  intro a b f s
  refine ⟨fun hs => ?_, fun hs hff hwf h0 h1 => ⟨_, ?_, Memory.read_write_same hwf _ _,
    fun k hk => Memory.read_write_other hwf hk _⟩, fun hs => ?_⟩
  · rw [exec_of_execute hs, aluOf_sw]
    rfl
  · have hstore := memoryStore_of_inRange (i := .sw a b f) hff ((inRange_iff _ _).2 ⟨h0, h1⟩)
    exact (exec_of_memory hs).trans (congrArg Host.Outcome.next hstore)
  · exact exec_of_writeback hs

/-! ### From Execute to the register or the word -/

/-- A LW or SW in IDEX, no taken branch being in Memory, is in EXMEM a cycle later with its
effective address, which is in range when the Memory cycle commits (R182, R233). -/
theorem effectiveAddress_reaches_memory {s s1 s2 : State} (h1 : Commits s s1) (h2 : Commits s1 s2)
    (hb : ¬ TakenBranch s) {i : Instr} (hi : decode s.idex.instr = i)
    (ho : i.opc = .lw ∨ i.opc = .sw) :
    s1.exmem.instr = s.idex.instr ∧ s1.exmem.aluResult = aluOf i s ∧
    0 ≤ (aluOf i s).toInt ∧ (aluOf i s).toInt < s.memWords := by
  subst hi
  obtain ⟨-, -, rfl⟩ := commits_ordinaryCycle h1
  obtain ⟨-, hc, -⟩ := commits_ordinaryCycle h2
  obtain ⟨hinstr, halu⟩ := ordinaryCycle_exmem_instr_aluResult hb
  rw [opc_decode, ← hinstr] at ho
  have hrange := (inRange_of_no_fault hc ho).2
  rw [rest_exmem, halu] at hrange
  exact ⟨hinstr, halu, hrange⟩

/-- Execute carries the forwarded operand b (R112). -/
theorem ordinaryCycle_exmem_readRegB {s : State} (hb : ¬ TakenBranch s) :
    (ordinaryCycle s).exmem.readRegB = operandB s (regB s.idex.instr) := by
  rw [ordinaryCycle_exmem_of_not_taken hb, executeOf_exmem]

/-- A LW in EXMEM has put the word at its effective address into its register after two ordinary
cycles: Memory and Writeback (R180). -/
theorem readReg_two_cycles_of_lw {s : State} (ho : opc s.exmem.instr = .lw) :
    readReg (ordinaryCycle (ordinaryCycle s).rest).rest (regB s.exmem.instr) =
      s.mem.read s.exmem.aluResult.toNat := by
  have hmemwb : (ordinaryCycle s).rest.memwb =
      { instr := s.exmem.instr, writeData := s.mem.read s.exmem.aluResult.toNat } := by
    rw [rest_memwb, ordinaryCycle_memwb, if_pos ho]
  have hread := ordinaryCycle_readReg (ordinaryCycle s).rest (regB s.exmem.instr)
  rwa [hmemwb, if_pos ((writeDest_iff _ _).2 (.inl ⟨ho, rfl⟩))] at hread

/-- Settles O42: the Memory cycle reads the word at the address that Execute latched, and Writeback
writes it. -/
theorem loadReachesItsRegister : Obligations.LoadReachesItsRegister := by
  intro s s1 s2 s3 a b f h1 h2 h3 hb hi
  obtain ⟨hinstr, halu, h0, hlt⟩ := effectiveAddress_reaches_memory h1 h2 hb hi (.inl rfl)
  obtain ⟨-, -, rfl⟩ := commits_ordinaryCycle h2
  obtain ⟨-, -, rfl⟩ := commits_ordinaryCycle h3
  have ho : opc s1.exmem.instr = .lw := by rw [hinstr, ← opc_decode, hi]; rfl
  have hdest : regB s1.exmem.instr = b := by rw [hinstr, ← regB_decode, hi]; rfl
  have hread := readReg_two_cycles_of_lw ho
  rw [hdest, halu] at hread
  exact ⟨h0, hlt, hread⟩

/-- Settles O43: the Memory cycle writes the operand that Execute carried at the address it
latched; the invariant keeps the memory canonical up to that cycle. -/
theorem storeReachesMemory : Obligations.StoreReachesMemory := by
  intro s s1 s2 a b f hinv h1 h2 hb hi
  obtain ⟨hinstr, halu, h0, hlt⟩ := effectiveAddress_reaches_memory h1 h2 hb hi (.inr rfl)
  have ⟨_, hstep, _⟩ := h1
  obtain ⟨-, ⟨hwf, -⟩, -⟩ := stepKeepsInv s s1 hinv hstep
  obtain ⟨-, -, rfl⟩ := commits_ordinaryCycle h1
  obtain ⟨-, -, rfl⟩ := commits_ordinaryCycle h2
  have ho : opc (ordinaryCycle s).rest.exmem.instr = .sw := by
    rw [hinstr, ← opc_decode, hi]; rfl
  have hdata : (ordinaryCycle s).rest.exmem.readRegB = operandB s b := by
    rw [rest_exmem, ordinaryCycle_exmem_readRegB hb, ← regB_decode, hi]; rfl
  refine ⟨h0, hlt, fun k => (read_ordinaryCycle hwf k).trans ?_⟩
  simp only [ho, true_and, halu, hdata, aluOf_sw]

end Sys2Proof.Machine
end

section
/-! BEQ, HALT and the inert words (R200 to R204): what each slot makes of them, and the way of a
BEQ's comparison and of a HALT from Execute to the cycle that acts on them. -/

namespace Sys2Proof.Machine

open Sys2Proof.Safety

/-! ### Slot by slot -/

@[simp] theorem aluOf_beq (a b : RegIx) (f : Half) (s : State) :
    aluOf (.beq a b f) s = operandA s a - operandB s b := rfl

section
variable {i : Instr} {s : State}

theorem aluIsZero_iff (x : Word) : aluIsZero x = true ↔ x = 0 := decide_eq_true_iff

/-- An unmarked BEQ whose operands' difference is zero redirects (R200). -/
theorem memoryBranch_of_zero (hff : s.exmem.ff = none) (hz : s.exmem.aluResult = 0) :
    memoryBranch i s = redirectTo s.exmem.branchTarget (latchMemory i s.exmem.aluResult s) := by
  rw [memoryBranch, unlessMarked_of_none hff, if_pos ((aluIsZero_iff _).2 hz)]

/-- An unmarked BEQ whose operands differ only goes on to MEMWB (R200). -/
theorem memoryBranch_of_ne_zero (hff : s.exmem.ff = none) (hz : s.exmem.aluResult ≠ 0) :
    memoryBranch i s = latchMemory i s.exmem.aluResult s := by
  rw [memoryBranch, unlessMarked_of_none hff, if_neg (mt (aluIsZero_iff _).1 hz)]

/-- The classes with no operation of their own in Execute and Memory (R111, R113). -/
def OnDefaultPath (i : Instr) : Prop :=
  i.opc = .halt ∨ i.opc = .noop ∨ i.opc = .jalr ∨ i.opc = .other

theorem aluOf_of_default (ho : OnDefaultPath i) :
    aluOf i s = operandA s i.regA + operandB s i.regB := by
  rcases ho with ho | ho | ho | ho <;> rw [aluOf, ho] <;> rfl

theorem memoryOf_of_default (ho : OnDefaultPath i) : memoryOf i s = memoryPass i s := by
  rcases ho with ho | ho | ho | ho <;> rw [memoryOf, ho]

theorem exec_execute_of_default (ho : OnDefaultPath i) (hs : s.slot = .execute) :
    exec i s = .next
      { s with
        exmem :=
          { instr := encode i, branchTarget := s.idex.pcPlus1 + s.idex.offset,
            aluResult := operandA s i.regA + operandB s i.regB, readRegB := operandB s i.regB,
            ff := s.idex.ff } } := by
  rw [exec_of_execute hs, aluOf_of_default ho, latchExecute]

theorem exec_memory_of_default (ho : OnDefaultPath i) (hs : s.slot = .memory)
    (hff : s.exmem.ff = none) :
    exec i s = .next { s with memwb := { instr := encode i, writeData := s.exmem.aluResult } } := by
  rw [exec_of_memory hs, memoryOf_of_default ho, memoryPass, unlessMarked_of_none hff, latchMemory]

end

/-- Settles O12: Execute latches the difference, Memory redirects exactly on a zero, and Writeback
only retires the word. -/
theorem beqResult : Obligations.BeqResult := by
  intro a b f s
  refine ⟨fun hs => ?_, fun hs hff hz => ?_, fun hs hff hz => ?_, fun hs => ?_⟩
  · rw [exec_of_execute hs, aluOf_beq]
    rfl
  · have htaken := memoryBranch_of_zero (i := .beq a b f) hff hz
    exact (exec_of_memory hs).trans (congrArg Host.Outcome.next htaken)
  · have hpass := memoryBranch_of_ne_zero (i := .beq a b f) hff hz
    exact (exec_of_memory hs).trans (congrArg Host.Outcome.next hpass)
  · exact exec_of_writeback hs

/-- Settles O13: the default path up to MEMWB, where HALT terminates instead of retiring. -/
theorem haltResult : Obligations.HaltResult := by
  intro a b f s
  have hdefault : OnDefaultPath (.halt a b f) := .inl rfl
  exact ⟨exec_execute_of_default hdefault, exec_memory_of_default hdefault, exec_of_writeback⟩

/-- Settles O14: the default path, and a Writeback that only retires the word. -/
theorem inertWordsResult : Obligations.InertWordsResult := by
  intro i ho s
  have hdefault : OnDefaultPath i := .inr ho
  refine ⟨exec_execute_of_default hdefault, exec_memory_of_default hdefault, fun hs => ?_⟩
  have hretire : writebackOf i s = latchRetire i s := by
    rcases ho with ho | ho | ho <;> rw [writebackOf, ho]
  rw [exec_of_writeback hs, hretire, latchRetire]

/-! ### From Execute to the redirect or the end of the run -/

/-- A BEQ in IDEX, no older branch being taken, is a taken branch a cycle later exactly when its
forwarded operands are the same Word (R200, R162). -/
theorem takenBranch_ordinaryCycle_iff {s : State} {a b : RegIx} {f : Half} (hb : ¬ TakenBranch s)
    (hi : decode s.idex.instr = .beq a b f) :
    TakenBranch (ordinaryCycle s).rest ↔ operandA s a = operandB s b := by
  obtain ⟨hinstr, halu⟩ := ordinaryCycle_exmem_instr_aluResult hb
  have ho : opc s.idex.instr = .beq := by rw [← opc_decode, hi]; rfl
  rw [TakenBranch, rest_exmem, hinstr, halu, hi, aluOf_beq, sub_eq_zero]
  exact and_iff_right ho

/-- Execute computes the branch target of every word (R112). -/
theorem ordinaryCycle_exmem_branchTarget {s : State} (hb : ¬ TakenBranch s) :
    (ordinaryCycle s).exmem.branchTarget = s.idex.pcPlus1 + s.idex.offset := by
  rw [ordinaryCycle_exmem_of_not_taken hb, executeOf_exmem]

/-- Settles O44: the comparison decides whether the Memory cycle is a taken branch's; its target is
the one Execute computed. -/
theorem branchDecidesInMemory : Obligations.BranchDecidesInMemory := by
  intro s s1 s2 a b f h1 h2 hb hi
  obtain ⟨-, -, rfl⟩ := commits_ordinaryCycle h1
  rw [Ne, ← takenBranch_ordinaryCycle_iff hb hi, ← ordinaryCycle_exmem_branchTarget hb]
  refine ⟨fun ht => ?_, fun ht => ?_⟩
  · obtain ⟨hpc, hifid, -, hidex, -, hexmem, -⟩ := takenBranchRedirectsAndFlushes _ s2 h2 ht
    exact ⟨hpc, hifid, hidex, hexmem⟩
  · obtain ⟨-, -, rfl⟩ := commits_ordinaryCycle h2
    refine ⟨(ordinaryCycle_exmem_instr_aluResult ht).1, fun hs => ⟨?_, ?_⟩⟩
    · rw [rest_pc, ordinaryCycle_pc_of_not_taken ht, fetchOf_pc, if_neg (Bool.eq_false_iff.1 hs)]
    · rw [rest_idex, ordinaryCycle_idex_instr, if_neg (not_or.2 ⟨ht, Bool.eq_false_iff.1 hs⟩)]

/-- The word in IDEX, no taken branch being in Memory, is in MEMWB after two committing cycles. -/
theorem idexInstr_reaches_memwb {s s1 s2 : State} (h1 : Commits s s1) (h2 : Commits s1 s2)
    (hb : ¬ TakenBranch s) : s2.memwb.instr = s.idex.instr := by
  obtain ⟨-, -, rfl⟩ := commits_ordinaryCycle h1
  obtain ⟨-, -, rfl⟩ := commits_ordinaryCycle h2
  exact (ordinaryCycle_exmem_instr_aluResult hb).1

/-- Settles O45: the HALT is in MEMWB, where the termination check finds it; the committed state is
already at rest. -/
theorem haltStopsAtTheFourthPosition : Obligations.HaltStopsAtTheFourthPosition := by
  intro s s1 s2 a b f h1 h2 hb hi
  have hhalt : opc s2.memwb.instr = .halt := by
    rw [idexInstr_reaches_memwb h1 h2 hb, ← opc_decode, hi]; rfl
  have ⟨_, _, hr⟩ := h2
  obtain ⟨-, -, rfl⟩ := commits_ordinaryCycle h2
  exact haltInMemwbHaltsTheCore _ hr hhalt

end Sys2Proof.Machine
end

section
/-! The faults (R231 to R236): a destination or an address out of range in its slot, and what a
cycle that raises one leaves. -/

namespace Sys2Proof.Machine

open Sys2Proof.Safety

/-! ### In a slot -/

/-- Writeback of an ADD or NAND whose destination names no register raises DEST_RANGE (R232). -/
theorem exec_writeback_of_destRange {i : Instr} {s : State} (ho : i.opc = .add ∨ i.opc = .nand)
    (hs : s.slot = .writeback) (hd : 8 ≤ i.imm16.toNat) :
    exec i s = .next (raiseFault (.destRange i.imm16 (encode i)) s) := by
  rw [exec_of_writeback hs]
  rcases ho with ho | ho <;> simp only [writebackOf, ho, retireDest_of_ge hd]

/-- Settles O15: the destination test is that of both ALU classes. -/
theorem destinationOutOfRangeFaults : Obligations.DestinationOutOfRangeFaults := by
  intro a b d s hs hd
  exact ⟨exec_writeback_of_destRange (i := .add a b d) (.inl rfl) hs hd,
    exec_writeback_of_destRange (i := .nand a b d) (.inr rfl) hs hd, rfl⟩

/-- Memory raises MEM_RANGE for an unmarked LW or SW whose address is out of range (R233). -/
theorem exec_memory_of_memRange {i : Instr} {s : State} (ho : i.opc = .lw ∨ i.opc = .sw)
    (hs : s.slot = .memory) (hff : s.exmem.ff = none)
    (hr : ¬ inRange s.memWords s.exmem.aluResult = true) :
    exec i s = .next (raiseFault (.memRange s.exmem.aluResult (encode i)) s) := by
  rw [exec_of_memory hs, memoryOf_of_unmarked hff, if_pos ⟨ho, hr⟩]

/-- Settles O16: the address test is that of both load and store, before either acts. -/
theorem addressOutOfRangeFaults : Obligations.AddressOutOfRangeFaults := by
  intro a b f s hs hff hr
  rw [← inRange_iff] at hr
  exact ⟨exec_memory_of_memRange (i := .lw a b f) (.inl rfl) hs hff hr,
    exec_memory_of_memRange (i := .sw a b f) (.inr rfl) hs hff hr, rfl⟩

/-! ### In a cycle -/

/-- Writeback holds the older instruction, so its fault is the cycle's (R235). -/
theorem cycleFault_eq_some_iff {s : State} {c : FaultCause} :
    cycleFault s = some c ↔
      writebackFault s = some c ∨ (writebackFault s = none ∧ memoryFault s = some c) :=
  Option.or_eq_some_iff

/-- A faulting cycle leaves the state before it, with status FAULTED (R118, R236). -/
theorem step_of_cycleFault {s : State} {c : FaultCause} (hr : s.status = .running)
    (hh : opc s.memwb.instr ≠ .halt) (hc : cycleFault s = some c) :
    step s = .next { s.rest with status := .faulted c } := by
  rw [step_eq_oneCycle hr, oneCycle_of_fault hh hc]
  rfl

/-- A RUNNING core's cycle that neither halts nor faults commits (R118). -/
theorem commits_of_no_fault {s : State} (hr : s.status = .running)
    (hh : opc s.memwb.instr ≠ .halt) (hc : cycleFault s = none) :
    Commits s (ordinaryCycle s).rest :=
  ⟨hr, by rw [step_eq_oneCycle hr, oneCycle_of_no_fault hh hc], hr⟩

/-- Settles O27: R122's cycle takes the fault R235 ranks first, or commits; FAULTED has no step. -/
theorem faultingCycleChangesOnlyTheStatus : Obligations.FaultingCycleChangesOnlyTheStatus := by
  intro s hr hh
  refine ⟨fun c hc => ⟨?_, step_of_faulted rfl⟩, fun hw hm => ?_⟩
  · exact step_of_cycleFault hr hh (cycleFault_eq_some_iff.2 hc)
  · exact ⟨_, commits_of_no_fault hr hh ((cycleFault_eq_none s).2 ⟨hw, hm⟩)⟩

end Sys2Proof.Machine
end

section
/-! Reset and the machine's invariants (R41, R42, R260), and the load the model refuses (R264). -/

namespace Sys2Proof.Machine

open Sys2Proof.Safety

/-- The sentinel writes no register (R41, R76). -/
theorem writeDest_noopWord : writeDest noopWord = none := by rw [writeDest, opc_noopWord]

/-- Behind the sentinel in WBEND and in IDEX forwarding has nothing to keep: no write is recent and
no operand is used. -/
theorem coherent_of_noopWord {s : State} (hwbend : s.wbend.instr = noopWord)
    (hidex : s.idex.instr = noopWord) : Coherent s := by
  refine ⟨fun r h => ?_, fun hno => ?_⟩
  · rw [hwbend, writeDest_noopWord] at h
    cases h
  · rw [hidex] at hno
    exact absurd opc_noopWord hno

/-- A state without markers has them on the sentinel only. -/
theorem markersOnSentinel_of_unmarked {s : State} (hifid : s.ifid.ff = none)
    (hidex : s.idex.ff = none) (hexmem : s.exmem.ff = none) : MarkersOnSentinel s :=
  ⟨fun h => absurd hifid h, fun h => absurd hidex h, fun h => absurd hexmem h⟩

/-- The memory a reset builds lists only addresses of the array (R50, R51). -/
theorem below_resetWith_mem (n : Nat) (image : List Word) (tail : Nat → Word) :
    (resetWith n image tail).mem.below n = true := by
  have hbelow := Memory.below_fill tail n 0 image
  rwa [Nat.zero_add] at hbelow

/-- A reset leaves no marker (R42), so only its memory and image bear on the invariant. -/
theorem inv_resetWith {n : Nat} {image : List Word} (tail : Nat → Word)
    (hlen : image.length ≤ n) : Inv (resetWith n image tail) :=
  ⟨⟨rfl, rfl⟩, ⟨resetWith_mem_wf n image tail, below_resetWith_mem n image tail, hlen⟩,
    markersOnSentinel_of_unmarked rfl rfl rfl⟩

/-- `State.reset` lists nothing in memory and its image is empty. -/
theorem inv_reset : Inv State.reset :=
  ⟨⟨rfl, rfl⟩, ⟨reset_mem_wf, rfl, Nat.zero_le _⟩, markersOnSentinel_of_unmarked rfl rfl rfl⟩

/-- Settles O47: the load's length test fails. -/
theorem longImageIsRefused : Obligations.LongImageIsRefused := by
  intro n image tail hlen
  exact if_neg (Nat.not_le.2 hlen)

/-- Settles O48: the memory that is built fits, and every latch holds the unmarked sentinel. -/
theorem resetMeetsTheInvariants : Obligations.ResetMeetsTheInvariants :=
  ⟨inv_reset, coherent_of_noopWord rfl rfl, fun _ _ tail hlen =>
    ⟨inv_resetWith tail hlen, coherent_of_noopWord rfl rfl⟩⟩

end Sys2Proof.Machine
end

section
/-! Sample words of each opcode class (R77, 95_test_vectors.md V-EN-1). -/

namespace Sys2Proof

/-- A word decodes to the well-formed instruction that encodes to it. -/
theorem decode_eq_of_encode_eq {i : Instr} {w : Word} (hwf : i.wellFormed = true)
    (hw : encode i = w) : decode w = i := by
  rw [← hw]
  exact decodeInvertsEncode i hwf

/-- Settles O6: each instruction's fields pack to its word, which therefore decodes to it. -/
theorem sampleWordsDecode : Obligations.SampleWordsDecode :=
  ⟨decode_eq_of_encode_eq rfl rfl, decode_eq_of_encode_eq rfl rfl,
    decode_eq_of_encode_eq rfl rfl, decode_eq_of_encode_eq rfl rfl,
    decode_eq_of_encode_eq rfl rfl, decode_eq_of_encode_eq rfl rfl,
    decode_eq_of_encode_eq rfl rfl, decode_eq_of_encode_eq rfl rfl,
    decode_eq_of_encode_eq rfl rfl⟩

end Sys2Proof
end
